-- ==== Sys2Proof/Config.lean ====
section
/-!
DEFINITION. What the implementation fixes: the literals of 00_scope.md R4, the two values of the open
parameter `SHIFT_SRC` (00_scope.md R5), and the one free value, the byte `rnd_in` (41_register_alu.md R102).
-/

namespace Sys2Proof.Config

/-! ### Sizes (R4) -/

/-- General registers, V0 to VF (R4 `NREG`). -/
abbrev nreg : Nat := 16

/-- Bits of a general register, of `DT` and of `ST` (R4 `XLEN`). -/
abbrev xlen : Nat := 8

/-- Bits of `I`, `PC` and `SP` (R4 `ALEN`). -/
abbrev alen : Nat := 16

/-- Bits of an instruction word (R4 `ILEN`). -/
abbrev ilen : Nat := 16

/-- Entries of the key latch (R4 `NKEY`). -/
abbrev nkey : Nat := 16

/-- Bytes of memory; the last address is 0xFFF (R4 `MEM_SIZE`). -/
abbrev memSize : Nat := 4096

/-- Framebuffer width in pixels (R4 `FB_W`). -/
abbrev fbWidth : Nat := 64

/-- Framebuffer height in pixels (R4 `FB_H`). -/
abbrev fbHeight : Nat := 32

/-- Cells of the framebuffer (R4 `FB_CELLS`). -/
abbrev fbCells : Nat := fbWidth * fbHeight

/-- Pixels of one sprite row (R4 `SPRITE_W`). -/
abbrev spriteWidth : Nat := 8

/-- Glyphs of the font table (R4 `FONT_GLYPHS`). -/
abbrev fontGlyphs : Nat := 16

/-- Bytes of one glyph of the font table (R4 `FONT_GLYPH_BYTES`). -/
abbrev fontGlyphBytes : Nat := 5

/-! ### Addresses and thresholds (R4, R5) -/

/-- Program counter after reset (R4 `PC_RESET`). -/
abbrev pcReset : BitVec 16 := 0x200

/-- Stack pointer after reset (R4 `SP_RESET`). -/
abbrev spReset : BitVec 16 := 0xFA0

/-- Threshold of the VF result of `ADD I, Vx` (R4 `I_FLAG_LIMIT`). -/
abbrev iFlagLimit : Nat := 0x1000

/-- The sound output is active while `ST` is above this value (R4 `SOUND_THRESHOLD`). -/
abbrev soundThreshold : Nat := 2

/-- Where the host loads the font table: "`d * 5`" with no base added (R5 `FONT_BASE`, decision D10). -/
abbrev fontBase : BitVec 16 := 0x000

/-- Where the host loads the ROM image (R4 `ROM_BASE`). -/
abbrev romBase : BitVec 16 := 0x200

/-! ### Launch data, the open parameter and the free value -/

/-- The font table the host loads at start-up, five bytes for each of the glyphs 0 to F (42_index_memory.md
R117). It is data of the host and no part of the hardware: no instruction's meaning depends on it. -/
def fontTable : List (BitVec 8) :=
  [0xF0, 0x90, 0x90, 0x90, 0xF0] ++ [0x20, 0x60, 0x20, 0x20, 0x70] ++ [0xF0, 0x10, 0xF0, 0x80, 0xF0] ++
  [0xF0, 0x10, 0xF0, 0x10, 0xF0] ++ [0x90, 0x90, 0xF0, 0x10, 0x10] ++ [0xF0, 0x80, 0xF0, 0x10, 0xF0] ++
  [0xF0, 0x80, 0xF0, 0x90, 0xF0] ++ [0xF0, 0x10, 0x20, 0x40, 0x40] ++ [0xF0, 0x90, 0xF0, 0x90, 0xF0] ++
  [0xF0, 0x90, 0xF0, 0x10, 0xF0] ++ [0xF0, 0x90, 0xF0, 0x90, 0x90] ++ [0xE0, 0x90, 0xE0, 0x90, 0xE0] ++
  [0xF0, 0x80, 0x80, 0x80, 0xF0] ++ [0xE0, 0x90, 0x90, 0x90, 0xE0] ++ [0xF0, 0x80, 0xF0, 0x80, 0xF0] ++
  [0xF0, 0x80, 0xF0, 0x80, 0x80]

theorem length_fontTable_eq : fontTable.length = fontGlyphs * fontGlyphBytes := rfl

/-- The open parameter `SHIFT_SRC`: which register `SHR` and `SHL` read (R5, decision D3). `State.resetFor`
takes it as its argument and the field `shiftSrc` of `State` holds it, so a claim about every state holds for
both values (assumption log 4). -/
inductive ShiftSrc where
  | vx
  | vy
deriving DecidableEq, Repr

/-- The free value `rnd_in` (41_register_alu.md R102, decision D8): the byte the host delivers at the
k-th `RND` of a run. It has no body, so a claim holds for every sequence of bytes (assumption log 3). -/
opaque rndIn : Nat → BitVec 8

end Sys2Proof.Config
end

