-- ==== Sys2Proof/Word.lean ====
section
/-!
DEFINITION. The word types of the CHIP-8 core and their plainest arithmetic.

Every value of the hardware is an unsigned integer of a stated width (00_scope.md R9), so bit vectors
stand for register contents, addresses held in registers and fields of an instruction word, and
register and key numbers are `Fin 16` (30_encoding.md R53: every value of a 4-bit field is valid). The sizes in
these types are written as numbers, so that arithmetic on them is plain, and each is the constant of Config it
stands for, as the theorems after it say.
-/

namespace Sys2Proof

/-- One 8-bit cell: a general register, a timer, a byte of memory (00_scope.md R4, `XLEN`). -/
abbrev Byte := BitVec 8

/-- One 16-bit value: `I`, `PC`, `SP` and an instruction word (00_scope.md R4, `ALEN`, `ILEN`). -/
abbrev Word := BitVec 16

theorem byte_width : Byte = BitVec Config.xlen := rfl

theorem word_width : Word = BitVec Config.alen := rfl

theorem instruction_width : Word = BitVec Config.ilen := rfl

/-- The 12-bit address field `nnn` of an instruction word (30_encoding.md R51). -/
abbrev Addr12 := BitVec 12

/-- The number of a general register, V0 to VF (10_state.md R10). -/
abbrev Reg := Fin 16

theorem reg_count : Reg = Fin Config.nreg := rfl

/-- A sprite row count, the field `n` (30_encoding.md R51). -/
abbrev RowCount := Fin 16

/-- The number of a key of the key latch (10_state.md R17). -/
abbrev Key := Fin 16

theorem key_count : Key = Fin Config.nkey := rfl

/-- A column of the framebuffer (10_state.md R22). -/
abbrev Column := Fin 64

/-- A row of the framebuffer (10_state.md R22). -/
abbrev Line := Fin 32

theorem screen_size : Column = Fin Config.fbWidth ∧ Line = Fin Config.fbHeight := ⟨rfl, rfl⟩

/-- VF, the register that doubles as the flag (10_state.md R11). -/
abbrev vF : Reg := 15

/-- V0, the implicit offset of `JP V0, nnn` (10_state.md R10). -/
abbrev v0 : Reg := 0

end Sys2Proof
end

