-- ==== Sys2Proof/Syntax.lean ====
section
/-!
DEFINITION. The instructions: one constructor for each of the 35 rows of 30_encoding.md R55
(`spec/opcode_table.json`), in the table's order. Operands are the fields of R51: `nnn` 12 bits, `kk` 8
bits, `x` and `y` register numbers, `n` a row count.
-/

namespace Sys2Proof

/-- One instruction of the opcode map (30_encoding.md R55). The comment of a constructor gives the row's
pattern and its mnemonic. -/
inductive Instr where
  /-- `0nnn` except `00E0`, `00EE`: `SYS nnn` -/
  | sys (nnn : Addr12)
  /-- `00E0`: `CLS` -/
  | cls
  /-- `00EE`: `RET` -/
  | ret
  /-- `1nnn`: `JP nnn` -/
  | jp (nnn : Addr12)
  /-- `2nnn`: `CALL nnn` -/
  | call (nnn : Addr12)
  /-- `3xkk`: `SE Vx, kk` -/
  | seImm (x : Reg) (kk : Byte)
  /-- `4xkk`: `SNE Vx, kk` -/
  | sneImm (x : Reg) (kk : Byte)
  /-- `5xy0`: `SE Vx, Vy` -/
  | seReg (x y : Reg)
  /-- `6xkk`: `LD Vx, kk` -/
  | ldImm (x : Reg) (kk : Byte)
  /-- `7xkk`: `ADD Vx, kk` -/
  | addImm (x : Reg) (kk : Byte)
  /-- `8xy0`: `LD Vx, Vy` -/
  | ldReg (x y : Reg)
  /-- `8xy1`: `OR Vx, Vy` -/
  | orReg (x y : Reg)
  /-- `8xy2`: `AND Vx, Vy` -/
  | andReg (x y : Reg)
  /-- `8xy3`: `XOR Vx, Vy` -/
  | xorReg (x y : Reg)
  /-- `8xy4`: `ADD Vx, Vy` -/
  | addReg (x y : Reg)
  /-- `8xy5`: `SUB Vx, Vy` -/
  | subReg (x y : Reg)
  /-- `8xy6`: `SHR Vx (, Vy)` -/
  | shrReg (x y : Reg)
  /-- `8xy7`: `SUBN Vx, Vy` -/
  | subnReg (x y : Reg)
  /-- `8xyE`: `SHL Vx (, Vy)` -/
  | shlReg (x y : Reg)
  /-- `9xy0`: `SNE Vx, Vy` -/
  | sneReg (x y : Reg)
  /-- `Annn`: `LD I, nnn` -/
  | ldI (nnn : Addr12)
  /-- `Bnnn`: `JP V0, nnn` -/
  | jpV0 (nnn : Addr12)
  /-- `Cxkk`: `RND Vx, kk` -/
  | rnd (x : Reg) (kk : Byte)
  /-- `Dxyn`: `DRW Vx, Vy, n` -/
  | drw (x y : Reg) (n : RowCount)
  /-- `Ex9E`: `SKP Vx` -/
  | skp (x : Reg)
  /-- `ExA1`: `SKNP Vx` -/
  | sknp (x : Reg)
  /-- `Fx07`: `LD Vx, DT` -/
  | ldVxDt (x : Reg)
  /-- `Fx0A`: `LD Vx, K` -/
  | ldVxK (x : Reg)
  /-- `Fx15`: `LD DT, Vx` -/
  | ldDtVx (x : Reg)
  /-- `Fx18`: `LD ST, Vx` -/
  | ldStVx (x : Reg)
  /-- `Fx1E`: `ADD I, Vx` -/
  | addI (x : Reg)
  /-- `Fx29`: `LD F, Vx` -/
  | ldF (x : Reg)
  /-- `Fx33`: `LD B, Vx` -/
  | ldB (x : Reg)
  /-- `Fx55`: `LD [I], Vx` -/
  | storeRegs (x : Reg)
  /-- `Fx65`: `LD Vx, [I]` -/
  | loadRegs (x : Reg)
deriving DecidableEq, Repr

end Sys2Proof
end

