-- ==== Sys2Proof/WellFormed.lean ====
section
/-!
DEFINITION. Which terms of `Instr` are instructions. Every operand field is valid at every value its width
admits (30_encoding.md R53), so the types of `Instr` already say all but one thing: row 1 of the opcode
map, `SYS nnn`, leaves out the two words that are `CLS` and `RET` (30_encoding.md R55 row 1, R57).
-/

namespace Sys2Proof

/-- The address of a `SYS nnn` is neither 0x0E0 nor 0x0EE (40_control_flow.md R70). -/
def sysAddressOk (nnn : Addr12) : Bool := nnn != 0x0E0 && nnn != 0x0EE

/-- A term that stands for an instruction word of its own row. -/
def Instr.wellFormed : Instr → Bool
  | .sys nnn => sysAddressOk nnn
  | .cls => true
  | .ret => true
  | .jp _ => true
  | .call _ => true
  | .seImm _ _ => true
  | .sneImm _ _ => true
  | .seReg _ _ => true
  | .ldImm _ _ => true
  | .addImm _ _ => true
  | .ldReg _ _ => true
  | .orReg _ _ => true
  | .andReg _ _ => true
  | .xorReg _ _ => true
  | .addReg _ _ => true
  | .subReg _ _ => true
  | .shrReg _ _ => true
  | .subnReg _ _ => true
  | .shlReg _ _ => true
  | .sneReg _ _ => true
  | .ldI _ => true
  | .jpV0 _ => true
  | .rnd _ _ => true
  | .drw _ _ _ => true
  | .skp _ => true
  | .sknp _ => true
  | .ldVxDt _ => true
  | .ldVxK _ => true
  | .ldDtVx _ => true
  | .ldStVx _ => true
  | .addI _ => true
  | .ldF _ => true
  | .ldB _ => true
  | .storeRegs _ => true
  | .loadRegs _ => true

/-- The table's "executes": every row but `SYS nnn` is executable (30_encoding.md R54, R57). -/
def Instr.executes : Instr → Bool
  | .sys _ => false
  | .cls | .ret | .jp _ | .call _ | .seImm _ _ | .sneImm _ _ | .seReg _ _ | .ldImm _ _ | .addImm _ _
  | .ldReg _ _ | .orReg _ _ | .andReg _ _ | .xorReg _ _ | .addReg _ _ | .subReg _ _ | .shrReg _ _
  | .subnReg _ _ | .shlReg _ _ | .sneReg _ _ | .ldI _ | .jpV0 _ | .rnd _ _ | .drw _ _ _ | .skp _
  | .sknp _ | .ldVxDt _ | .ldVxK _ | .ldDtVx _ | .ldStVx _ | .addI _ | .ldF _ | .ldB _
  | .storeRegs _ | .loadRegs _ => true

end Sys2Proof
end

