-- ==== Sys2Proof/Decode.lean ====
section
/-!
DEFINITION. The decoder of 30_encoding.md R54 (total on 16-bit words, rejecting by name) and, after it, the
encoder of the six formats of R52.

The word of row 1 (`0nnn` but `00E0` and `00EE`) decodes to the constructor `sys`, whose meaning raises
`InvalidOpcode`; R54 gives the same word the verdict invalid, which raises the same fault (assumption log 7).
-/

namespace Sys2Proof

/-- The words that match no row of the opcode map, one name for each row of the table of 30_encoding.md
R56 after the `SYS` space. Each raises `InvalidOpcode(ir)`. -/
inductive Invalid where
  /-- `5xyn` with `n` not 0 -/
  | skipEqual
  /-- `8xyn` with `n` in 8, 9, A, B, C, D, F -/
  | alu
  /-- `9xyn` with `n` not 0 -/
  | skipNotEqual
  /-- `Exkk` with `kk` neither 9E nor A1 -/
  | key
  /-- `Fxkk` with `kk` none of 07, 0A, 15, 18, 1E, 29, 33, 55, 65 -/
  | misc
deriving DecidableEq, Repr

/-! ### Fields (30_encoding.md R50, R51) -/

/-- `ir[15:12]`, the first nibble. -/
def fieldOp (ir : Word) : BitVec 4 := ir.extractLsb' 12 4

/-- `nnn = ir[11:0]`. -/
def fieldNnn (ir : Word) : Addr12 := ir.extractLsb' 0 12

/-- `kk = ir[7:0]`. -/
def fieldKk (ir : Word) : Byte := ir.extractLsb' 0 8

/-- `x = ir[11:8]`. -/
def fieldX (ir : Word) : Reg := (ir.extractLsb' 8 4).toFin

/-- `y = ir[7:4]`. -/
def fieldY (ir : Word) : Reg := (ir.extractLsb' 4 4).toFin

/-- `n = ir[3:0]`, as a row count or as the last fixed nibble of format `XY`. -/
def fieldN (ir : Word) : Fin 16 := (ir.extractLsb' 0 4).toFin

/-! ### The decoder (30_encoding.md R54) -/

/-- The `0x8` group: the last nibble selects the operation. -/
def decodeAlu (x y : Reg) (n0 : Nat) : Except Invalid Instr :=
  match n0 with
  | 0x0 => .ok (.ldReg x y)
  | 0x1 => .ok (.orReg x y)
  | 0x2 => .ok (.andReg x y)
  | 0x3 => .ok (.xorReg x y)
  | 0x4 => .ok (.addReg x y)
  | 0x5 => .ok (.subReg x y)
  | 0x6 => .ok (.shrReg x y)
  | 0x7 => .ok (.subnReg x y)
  | 0xE => .ok (.shlReg x y)
  | _ => .error .alu

/-- The `0xE` group: the low byte selects the key skip. -/
def decodeKey (x : Reg) (kk : Byte) : Except Invalid Instr :=
  if kk = 0x9E then .ok (.skp x)
  else if kk = 0xA1 then .ok (.sknp x)
  else .error .key

/-- The `0xF` group: the low byte selects the operation. -/
def decodeMisc (x : Reg) (kk : Byte) : Except Invalid Instr :=
  if kk = 0x07 then .ok (.ldVxDt x)
  else if kk = 0x0A then .ok (.ldVxK x)
  else if kk = 0x15 then .ok (.ldDtVx x)
  else if kk = 0x18 then .ok (.ldStVx x)
  else if kk = 0x1E then .ok (.addI x)
  else if kk = 0x29 then .ok (.ldF x)
  else if kk = 0x33 then .ok (.ldB x)
  else if kk = 0x55 then .ok (.storeRegs x)
  else if kk = 0x65 then .ok (.loadRegs x)
  else .error .misc

/-- The `0x0` group: `CLS` and `RET` are taken out of the `0nnn` space first. -/
def decodeZero (ir : Word) : Instr :=
  if ir = 0x00E0 then .cls
  else if ir = 0x00EE then .ret
  else .sys (fieldNnn ir)

/-- The instruction a 16-bit word stands for, or the name of the invalid group it lies in. The last arm is
the nibble 0xF. -/
def decodeWord (ir : Word) : Except Invalid Instr :=
  match (fieldOp ir).toNat with
  | 0x0 => .ok (decodeZero ir)
  | 0x1 => .ok (.jp (fieldNnn ir))
  | 0x2 => .ok (.call (fieldNnn ir))
  | 0x3 => .ok (.seImm (fieldX ir) (fieldKk ir))
  | 0x4 => .ok (.sneImm (fieldX ir) (fieldKk ir))
  | 0x5 => if fieldN ir = 0 then .ok (.seReg (fieldX ir) (fieldY ir)) else .error .skipEqual
  | 0x6 => .ok (.ldImm (fieldX ir) (fieldKk ir))
  | 0x7 => .ok (.addImm (fieldX ir) (fieldKk ir))
  | 0x8 => decodeAlu (fieldX ir) (fieldY ir) (fieldN ir).val
  | 0x9 => if fieldN ir = 0 then .ok (.sneReg (fieldX ir) (fieldY ir)) else .error .skipNotEqual
  | 0xA => .ok (.ldI (fieldNnn ir))
  | 0xB => .ok (.jpV0 (fieldNnn ir))
  | 0xC => .ok (.rnd (fieldX ir) (fieldKk ir))
  | 0xD => .ok (.drw (fieldX ir) (fieldY ir) (fieldN ir))
  | 0xE => decodeKey (fieldX ir) (fieldKk ir)
  | _ => decodeMisc (fieldX ir) (fieldKk ir)

/-- The word two consecutive bytes hold: the high byte is the one at the lower address (20_memory.md R37,
30_encoding.md R50). -/
def wordOfBytes (hi lo : Byte) : Word := hi ++ lo

/-- The instruction two consecutive bytes of memory hold. -/
def decodeBytes (hi lo : Byte) : Except Invalid Instr := decodeWord (wordOfBytes hi lo)

/-- What the decoder reads from an instruction whose bits, numbered as the opcode table numbers them, are
`w`: the word is laid out big-endian, high byte first, and given to `decodeBytes`. -/
def decodeTableWord (nbits w : Nat) : Option Instr :=
  let bits := w % 2 ^ nbits
  match decodeBytes (BitVec.ofNat 8 (bits / 256)) (BitVec.ofNat 8 bits) with
  | .ok i => some i
  | .error _ => none

/-! ### The encoder (30_encoding.md R52) -/

/-- Format `A`: an opcode nibble and `nnn`. -/
def encodeA (op : BitVec 4) (nnn : Addr12) : Word := op ++ nnn

/-- Formats `XK` and `X`: an opcode nibble, `x` and a byte. -/
def encodeXK (op : BitVec 4) (x : Reg) (kk : Byte) : Word := op ++ BitVec.ofFin (w := 4) x ++ kk

/-- Formats `XY` and `XYN`: an opcode nibble, `x`, `y` and a last nibble. -/
def encodeXY (op : BitVec 4) (x y : Reg) (n : Fin 16) : Word :=
  op ++ BitVec.ofFin (w := 4) x ++ BitVec.ofFin (w := 4) y ++ BitVec.ofFin (w := 4) n

/-- The word of an instruction (30_encoding.md R55, column "pattern"). -/
def encode : Instr → Word
  | .sys nnn => encodeA 0x0 nnn
  | .cls => 0x00E0
  | .ret => 0x00EE
  | .jp nnn => encodeA 0x1 nnn
  | .call nnn => encodeA 0x2 nnn
  | .seImm x kk => encodeXK 0x3 x kk
  | .sneImm x kk => encodeXK 0x4 x kk
  | .seReg x y => encodeXY 0x5 x y 0x0
  | .ldImm x kk => encodeXK 0x6 x kk
  | .addImm x kk => encodeXK 0x7 x kk
  | .ldReg x y => encodeXY 0x8 x y 0x0
  | .orReg x y => encodeXY 0x8 x y 0x1
  | .andReg x y => encodeXY 0x8 x y 0x2
  | .xorReg x y => encodeXY 0x8 x y 0x3
  | .addReg x y => encodeXY 0x8 x y 0x4
  | .subReg x y => encodeXY 0x8 x y 0x5
  | .shrReg x y => encodeXY 0x8 x y 0x6
  | .subnReg x y => encodeXY 0x8 x y 0x7
  | .shlReg x y => encodeXY 0x8 x y 0xE
  | .sneReg x y => encodeXY 0x9 x y 0x0
  | .ldI nnn => encodeA 0xA nnn
  | .jpV0 nnn => encodeA 0xB nnn
  | .rnd x kk => encodeXK 0xC x kk
  | .drw x y n => encodeXY 0xD x y n
  | .skp x => encodeXK 0xE x 0x9E
  | .sknp x => encodeXK 0xE x 0xA1
  | .ldVxDt x => encodeXK 0xF x 0x07
  | .ldVxK x => encodeXK 0xF x 0x0A
  | .ldDtVx x => encodeXK 0xF x 0x15
  | .ldStVx x => encodeXK 0xF x 0x18
  | .addI x => encodeXK 0xF x 0x1E
  | .ldF x => encodeXK 0xF x 0x29
  | .ldB x => encodeXK 0xF x 0x33
  | .storeRegs x => encodeXK 0xF x 0x55
  | .loadRegs x => encodeXK 0xF x 0x65

/-- The two bytes of an instruction, the one at the lower address first (20_memory.md R37). -/
def encodeBytes (i : Instr) : List Byte := [(encode i).extractLsb' 8 8, (encode i).extractLsb' 0 8]

/-! ### The opcode table -/

/-- One row of `spec/opcode_table.json`: a word belongs to it when the bits of the mask are the pattern. -/
structure Row where
  mask : Word
  pattern : Word
deriving DecidableEq, Repr

/-- The row of an instruction (30_encoding.md R55, `spec/opcode_table.json` columns "mask" and "match"). -/
def Instr.row : Instr → Row
  | .sys _ => ⟨0xF000, 0x0000⟩
  | .cls => ⟨0xFFFF, 0x00E0⟩
  | .ret => ⟨0xFFFF, 0x00EE⟩
  | .jp _ => ⟨0xF000, 0x1000⟩
  | .call _ => ⟨0xF000, 0x2000⟩
  | .seImm _ _ => ⟨0xF000, 0x3000⟩
  | .sneImm _ _ => ⟨0xF000, 0x4000⟩
  | .seReg _ _ => ⟨0xF00F, 0x5000⟩
  | .ldImm _ _ => ⟨0xF000, 0x6000⟩
  | .addImm _ _ => ⟨0xF000, 0x7000⟩
  | .ldReg _ _ => ⟨0xF00F, 0x8000⟩
  | .orReg _ _ => ⟨0xF00F, 0x8001⟩
  | .andReg _ _ => ⟨0xF00F, 0x8002⟩
  | .xorReg _ _ => ⟨0xF00F, 0x8003⟩
  | .addReg _ _ => ⟨0xF00F, 0x8004⟩
  | .subReg _ _ => ⟨0xF00F, 0x8005⟩
  | .shrReg _ _ => ⟨0xF00F, 0x8006⟩
  | .subnReg _ _ => ⟨0xF00F, 0x8007⟩
  | .shlReg _ _ => ⟨0xF00F, 0x800E⟩
  | .sneReg _ _ => ⟨0xF00F, 0x9000⟩
  | .ldI _ => ⟨0xF000, 0xA000⟩
  | .jpV0 _ => ⟨0xF000, 0xB000⟩
  | .rnd _ _ => ⟨0xF000, 0xC000⟩
  | .drw _ _ _ => ⟨0xF000, 0xD000⟩
  | .skp _ => ⟨0xF0FF, 0xE09E⟩
  | .sknp _ => ⟨0xF0FF, 0xE0A1⟩
  | .ldVxDt _ => ⟨0xF0FF, 0xF007⟩
  | .ldVxK _ => ⟨0xF0FF, 0xF00A⟩
  | .ldDtVx _ => ⟨0xF0FF, 0xF015⟩
  | .ldStVx _ => ⟨0xF0FF, 0xF018⟩
  | .addI _ => ⟨0xF0FF, 0xF01E⟩
  | .ldF _ => ⟨0xF0FF, 0xF029⟩
  | .ldB _ => ⟨0xF0FF, 0xF033⟩
  | .storeRegs _ => ⟨0xF0FF, 0xF055⟩
  | .loadRegs _ => ⟨0xF0FF, 0xF065⟩

end Sys2Proof
end

