-- ==== Sys2Proof/Machine/State.lean ====
section
/-!
DEFINITION. The state of the core as plain data (10_state.md), the faults of 60_exceptions.md R140, the
events of the host (00_scope.md R6) and the state after reset (10_state.md R24).
-/

namespace Sys2Proof.Machine

/-- The faults of 60_exceptions.md R140, each with its information word. All are safe: the machine stops,
as R145 asks ("a terminal outcome"), and nothing but the fault itself can be read. -/
inductive Fault where
  /-- Code 1. Raised by `tick` when the fetched word matches no executable row of the opcode map (R56), by
  the decoder for the five invalid groups and by `execSys` for the `0nnn` space. Safe. -/
  | invalidOpcode (ir : Word)
  /-- Code 2. Raised by the memory primitives of Machine/Ops.lean (fetch, `RET`, `CALL`, `DRW`, `LD B`,
  `LD [I]`, `LD Vx, [I]`) for an address above 0xFFF; carries the lowest such address. Safe. -/
  | memoryOutOfRange (addr : Nat)
  /-- Code 3. Raised by nobody: a register number is a 4-bit field (R142); kept so that the list is R140's.
  Safe. -/
  | registerIndexOutOfRange (index : Nat)
  /-- Code 4. Raised by `SKP Vx` and `SKNP Vx` when `V[x]` is above 15 (44_timers_keys.md R136). Safe. -/
  | keyIndexOutOfRange (k : Byte)
  /-- Code 5. Raised by the host event `load` when the bytes do not fit (20_memory.md R36). Safe. -/
  | loadOutOfRange (last : Nat)
deriving DecidableEq, Repr

/-- Why a step has no meaning. The model gives every instruction a meaning, so nothing raises this. -/
inductive Refusal where
  /-- An arm of `exec` that gives its instruction no meaning; no arm does. Safe. -/
  | notModelled (mnemonic : String)
deriving DecidableEq, Repr

/-- One event the host issues (00_scope.md R6). The byte `rnd_in` of a `tick` is the free value
`Config.rndIn` (assumption log 3). The key index is a 4-bit port (60_exceptions.md R153). -/
inductive HostEvent where
  /-- Every piece of state takes its reset value (70_reset_and_hazards.md R160). -/
  | reset
  /-- Copies bytes into memory before the first `tick` (20_memory.md R36). -/
  | load (bytes : List Byte) (offset : Word)
  /-- One fetch, decode, execute (30_encoding.md R62). -/
  | tick
  /-- `DT` and `ST` count down (60_exceptions.md R150). -/
  | tickTimers
  /-- One key-latch entry is set or cleared (60_exceptions.md R153). -/
  | pressKey (index : Key) (pressed : Bool)
deriving DecidableEq, Repr

/-- Memory: the bytes that differ from `Memory.unlisted`, by rising address (20_memory.md R30). -/
abbrev Memory := List Host.Cell

/-- What an address that is not listed reads as: 0x00, "if nothing wrote it since reset" (20_memory.md R30,
10_state.md R24, 93_implementation_defined.md U18). -/
def Memory.unlisted : Byte := 0x00

/-- Addresses strictly rise from `lo`, lie below `Config.memSize`, and no listed byte is the unlisted one. -/
def Memory.wfFrom (lo : Nat) : Memory → Bool
  | [] => true
  | (a, b) :: m => decide (lo ≤ a) && decide (a < Config.memSize) && b != Memory.unlisted &&
      Memory.wfFrom (a + 1) m

/-- The canonical form of memory: equal memories are equal lists. -/
def Memory.wf (m : Memory) : Bool := Memory.wfFrom 0 m

/-- The framebuffer: 32 rows of 64 cells, true when lit (10_state.md R22, 43_display.md R120). -/
abbrev Framebuffer := Vector (Vector Bool Config.fbWidth) Config.fbHeight

/-- Everything the spec gives the machine (10_state.md), and three fields of the model's own, marked so. -/
structure State where
  /-- `V[0]` to `V[15]` (R10). -/
  v : Vector Byte Config.nreg
  /-- `I`, the index register (R13). -/
  i : Word
  /-- `PC` (R12). -/
  pc : Word
  /-- `SP` (R14). -/
  sp : Word
  /-- `DT`, the delay timer (R15). -/
  dt : Byte
  /-- `ST`, the sound timer (R16). -/
  st : Byte
  /-- `K[0]` to `K[15]`, the key latch (R17). -/
  keys : Vector Bool Config.nkey
  /-- `MEM` (R21). -/
  mem : Memory
  /-- `FB` (R22). -/
  fb : Framebuffer
  /-- `FAULT` (R18); `none` while the machine runs. -/
  fault : Option Fault
  /-- `RUN` (R19). -/
  run : Bool
  /-- The model's own: the value of the open parameter `SHIFT_SRC` for this machine (00_scope.md R5,
  assumption log 4). No step changes it. -/
  shiftSrc : Config.ShiftSrc
  /-- The model's own: how many `rnd_in` bytes have been used; the next is `Config.rndIn draws`
  (assumption log 3). -/
  draws : Nat
  /-- The model's own: the events the host issues next, first one first; when the list is empty the host
  issues `tick` (assumption log 2). -/
  host : List HostEvent
deriving DecidableEq, Repr

/-- What a step or a meaning answers. -/
abbrev Result := Host.Outcome State Fault Refusal

/-- The state after the event `reset` (10_state.md R24, 70_reset_and_hazards.md R160) of the machine whose open
parameter `SHIFT_SRC` is the argument (00_scope.md R5). The spec leaves no reset value open; the other two
fields of the model's own are at no byte drawn and at no event queued (assumption log 2, 3, 4). -/
def State.resetFor (src : Config.ShiftSrc) : State where
  v := Vector.replicate Config.nreg 0x00
  i := 0x0000
  pc := Config.pcReset
  sp := Config.spReset
  dt := 0x00
  st := 0x00
  keys := Vector.replicate Config.nkey false
  mem := []
  fb := Vector.replicate Config.fbHeight (Vector.replicate Config.fbWidth false)
  fault := none
  run := false
  shiftSrc := src
  draws := 0
  host := []

/-- The reset state of the machine with the default of `SHIFT_SRC`, which is `VX` (00_scope.md R5). -/
def State.reset : State := State.resetFor .vx

end Sys2Proof.Machine
end

