-- ==== Sys2Proof/Machine/Ops.lean ====
section
/-!
DEFINITION. The named operations over the state: one accessor and one update for each piece of state, the
memory primitives of 20_memory.md (R31 to R35), instruction fetch, raising a fault (60_exceptions.md R144),
the skip primitive (40_control_flow.md R79), the stack, and the framebuffer's cells.
-/

namespace Sys2Proof.Machine

/-! ### Registers (10_state.md R10 to R19) -/

/-- Read `V[x]` (R10). -/
def State.reg (s : State) (x : Reg) : Byte := s.v[x.val]

/-- `V[x] <- b` (R10); VF is written like any other register. -/
def State.setReg (s : State) (x : Reg) (b : Byte) : State := { s with v := s.v.set x.val b x.isLt }

/-- `I <- w` (R13). -/
def State.setI (s : State) (w : Word) : State := { s with i := w }

/-- `PC <- w` (R12). -/
def State.setPc (s : State) (w : Word) : State := { s with pc := w }

/-- `SP <- w` (R14). -/
def State.setSp (s : State) (w : Word) : State := { s with sp := w }

/-- `DT <- b` (R15). -/
def State.setDt (s : State) (b : Byte) : State := { s with dt := b }

/-- `ST <- b` (R16). -/
def State.setSt (s : State) (b : Byte) : State := { s with st := b }

/-- Read `K[k]` (R17). -/
def State.key (s : State) (k : Key) : Bool := s.keys[k.val]

/-- `K[k] <- b` (R17). -/
def State.setKey (s : State) (k : Key) (b : Bool) : State := { s with keys := s.keys.set k.val b k.isLt }

/-- Replace `MEM` (R21). -/
def State.setMem (s : State) (m : Memory) : State := { s with mem := m }

/-- Replace `FB` (R22). -/
def State.setFb (s : State) (f : Framebuffer) : State := { s with fb := f }

/-- `RUN <- true` (R19). -/
def State.start (s : State) : State := { s with run := true }

/-- The state after one `rnd_in` byte has been used (assumption log 3). -/
def State.drawn (s : State) : State := { s with draws := s.draws + 1 }

/-- The state whose host issues the events `l` next (assumption log 2). -/
def State.setHost (s : State) (l : List HostEvent) : State := { s with host := l }

/-! ### Faults (60_exceptions.md R144, R145, R149)

The hardware has no handler, no vector and no saved state: a fault is entered by setting the latch `FAULT`
and ending the event. There is no return from a fault (R149); only the event `reset` leaves it. -/

/-- The cause code of a fault (R140; the numbering is decision D16). -/
def Fault.code : Fault → Nat
  | .invalidOpcode _ => 1
  | .memoryOutOfRange _ => 2
  | .registerIndexOutOfRange _ => 3
  | .keyIndexOutOfRange _ => 4
  | .loadOutOfRange _ => 5

/-- `raise f`: the current event ends with the fault `f`, which is the value the latch `FAULT` takes (R144).
The outcome is terminal and no other state can be read from it (R145, assumption log 1). -/
def raise (f : Fault) : Result := .fault f

/-- The latch after a raised fault: `FAULT <- f` if it is `none` (R144). After the outcome `.fault f` the
machine stands in `s.latch f` for a state `s` the spec leaves unspecified (R145). -/
def State.latch (s : State) (f : Fault) : State :=
  match s.fault with
  | none => { s with fault := some f }
  | some _ => s

/-- An event has no effect while `FAULT` is set (R145). -/
def unlessFaulted (s : State) (r : Result) : Result :=
  match s.fault with
  | none => r
  | some _ => .next s

/-- Ends an event with the state an access left, or raises the fault it met. -/
def finish (r : Except Fault State) : Result :=
  match r with
  | .ok s => .next s
  | .error f => raise f

/-! ### Memory (20_memory.md R30 to R35)

Addresses are exact natural numbers, tested before any reduction (R35). -/

/-- The byte at an address, without the bounds test. -/
def Memory.read : Memory → Nat → Byte
  | [], _ => Memory.unlisted
  | (a, b) :: m, k => if a = k then b else Memory.read m k

/-- Replace the byte at an address, without the bounds test, keeping the canonical form: a byte equal to
the unlisted one is not listed. -/
def Memory.write : Memory → Nat → Byte → Memory
  | [], k, v => if v = Memory.unlisted then [] else [(k, v)]
  | (a, b) :: m, k, v =>
    if v = Memory.unlisted then (if k = a then Memory.write m k v else (a, b) :: Memory.write m k v)
    else if k < a then (k, v) :: (a, b) :: m
    else if k = a then (k, v) :: m
    else (a, b) :: Memory.write m k v

/-- `MEM[a]` of a state. -/
def State.byteAt (s : State) (a : Nat) : Byte := s.mem.read a

/-- The bounds test of every access (R35): an address above 0xFFF is out of range. -/
def outOfRange (a : Nat) : Bool := decide (Config.memSize ≤ a)

/-- `MemRead(a, 1)` (R31). -/
def memRead1 (s : State) (a : Nat) : Except Fault Byte :=
  if outOfRange a then .error (.memoryOutOfRange a) else .ok (s.byteAt a)

/-- `MemWrite(a, 1, b)` (R32). -/
def memWrite1 (s : State) (a : Nat) (b : Byte) : Except Fault State :=
  if outOfRange a then .error (.memoryOutOfRange a) else .ok (s.setMem (s.mem.write a b))

/-- The lowest out-of-range address of the two bytes at `a` and `a + 1`, if there is one (R33). -/
def pairFault (a : Nat) : Option Fault :=
  if outOfRange a then some (.memoryOutOfRange a)
  else if outOfRange (a + 1) then some (.memoryOutOfRange (a + 1))
  else none

/-- `MemRead(a, 2)`: big-endian, high byte at `a` (R33, R37). -/
def memRead2 (s : State) (a : Nat) : Except Fault Word :=
  match pairFault a with
  | some f => .error f
  | none => .ok (wordOfBytes (s.byteAt a) (s.byteAt (a + 1)))

/-- The two bytes of a 16-bit value at `a`, high byte at the lower address (R34, R37). -/
def Memory.write2 (m : Memory) (a : Nat) (w : Word) : Memory :=
  (m.write a (w.extractLsb' 8 8)).write (a + 1) (w.extractLsb' 0 8)

/-- `MemWrite(a, 2, w)`: no byte is written when the access is out of range (R34). -/
def memWrite2 (s : State) (a : Nat) (w : Word) : Except Fault State :=
  match pairFault a with
  | some f => .error f
  | none => .ok (s.setMem (s.mem.write2 a w))

/-- Single-byte reads at `a`, `a + 1`, ..., `n` of them, in ascending order (R39). -/
def readBytes (s : State) (a : Nat) : Nat → Except Fault (List Byte)
  | 0 => .ok []
  | n + 1 =>
    match memRead1 s a with
    | .error f => .error f
    | .ok b =>
      match readBytes s (a + 1) n with
      | .error f => .error f
      | .ok bs => .ok (b :: bs)

/-- Single-byte writes at `a`, `a + 1`, ... in ascending order (R39). -/
def writeBytes (s : State) (a : Nat) : List Byte → Except Fault State
  | [] => .ok s
  | b :: bs =>
    match memWrite1 s a b with
    | .error f => .error f
    | .ok t => writeBytes t (a + 1) bs

/-! ### Fetch (30_encoding.md R62) -/

/-- The fetch phase: the word at `PC`, and the state with `PC` advanced by 2. -/
def fetch (s : State) : Except Fault (Word × State) :=
  match memRead2 s s.pc.toNat with
  | .error f => .error f
  | .ok ir => .ok (ir, s.setPc (s.pc + 2))

/-! ### Control flow (40_control_flow.md R71, R73, R79) -/

/-- `skip_if(cond)`: `PC` advances by a further 2 when the condition holds (R79). -/
def skipIf (cond : Bool) (s : State) : State := if cond then s.setPc (s.pc + 2) else s

/-- Where `CALL` writes its return address: the new `SP` (R73). -/
def State.pushAddr (s : State) : Word := s.sp + 2

/-- `SP <- SP + 2`, then the word is written at the new `SP` (R73). -/
def push (s : State) (w : Word) : Except Fault State :=
  memWrite2 (s.setSp s.pushAddr) s.pushAddr.toNat w

/-- The word at `SP`, and the state with `SP <- SP - 2` (R71). -/
def pop (s : State) : Except Fault (Word × State) :=
  match memRead2 s s.sp.toNat with
  | .error f => .error f
  | .ok w => .ok (w, s.setSp (s.sp - 2))

/-! ### The framebuffer (43_display.md R120) -/

/-- `FB[px, py]`. -/
def Framebuffer.cell (f : Framebuffer) (px : Column) (py : Line) : Bool := (f[py.val])[px.val]

/-- `FB[px, py] <- not FB[px, py]`. -/
def Framebuffer.toggle (f : Framebuffer) (px : Column) (py : Line) : Framebuffer :=
  f.set py.val ((f[py.val]).set px.val (!(f.cell px py)) px.isLt) py.isLt

/-- Every cell unlit. -/
def Framebuffer.clear : Framebuffer := Vector.replicate Config.fbHeight (Vector.replicate Config.fbWidth false)

/-- `FB[px, py]` of a state. -/
def State.pixel (s : State) (px : Column) (py : Line) : Bool := s.fb.cell px py

end Sys2Proof.Machine
end

