-- ==== Sys2Proof/Machine/Flags.lean ====
section
/-!
DEFINITION. The flag computations, each the value VF receives (10_state.md R11, 41_register_alu.md R103).
The operands are taken as exact natural numbers, so a carry or a borrow is a comparison.
-/

namespace Sys2Proof.Machine

/-- A boolean stored into a register is 1 for true and 0 for false (00_scope.md R9). -/
def flagByte (b : Bool) : Byte := if b then 1 else 0

/-- `VF <- b ? 1 : 0`. -/
def State.setFlag (s : State) (b : Bool) : State := s.setReg vF (flagByte b)

/-- Carry of `a + b`: the sum exceeds 255 (R103, 41_register_alu.md R96). -/
def carryOut (a b : Byte) : Bool := decide (255 < a.toNat + b.toNat)

/-- Not-borrow of `a - b`: `a >= b` (R103, 41_register_alu.md R97, R99). -/
def notBorrow (a b : Byte) : Bool := decide (b.toNat ≤ a.toNat)

/-- The bit a right shift by one shifts out: bit 0 (41_register_alu.md R98). -/
def shiftedOutLow (a : Byte) : Bool := a.getLsbD 0

/-- The bit a left shift by one shifts out: bit 7 (41_register_alu.md R100). -/
def shiftedOutHigh (a : Byte) : Bool := a.getLsbD 7

/-- The flag of `ADD I, Vx`: the stored 16-bit result reaches or exceeds 0x1000 (42_index_memory.md R111,
decision D19). -/
def indexOverflow (w : Word) : Bool := decide (Config.iFlagLimit ≤ w.toNat)

/-- Writes a result to `V[x]` first and a flag to VF second, both computed from old values; with `x = 0xF`
VF ends as the flag (41_register_alu.md R101, decision D4). -/
def State.setResult (s : State) (x : Reg) (r : Byte) (flag : Bool) : State := (s.setReg x r).setFlag flag

end Sys2Proof.Machine
end

