-- ==== Sys2Proof/Machine/Operands.lean ====
section
/-!
DEFINITION. The operand forms: how a field of an instruction or a register becomes an address, a value, a
key number, or a range of registers (30_encoding.md R53, 42_index_memory.md R116).
-/

namespace Sys2Proof.Machine

/-- `zext_16(nnn)`, as `PC` or `I` takes it (30_encoding.md R53). -/
def addrWord (nnn : Addr12) : Word := nnn.setWidth 16

/-- `zext_16(b)` (00_scope.md R9). -/
def byteWord (b : Byte) : Word := b.setWidth 16

/-- The base of every data access: `I` as an exact integer, so that `I + offset` is never reduced
(42_index_memory.md R116, decision D17). -/
def State.dataAddr (s : State) : Nat := s.i.toNat

/-- The register `SHR` and `SHL` read, by the parameter `SHIFT_SRC` (41_register_alu.md R98, decision D3). -/
def State.shiftOperand (s : State) (x y : Reg) : Byte :=
  match s.shiftSrc with
  | .vx => s.reg x
  | .vy => s.reg y

/-- The key a whole byte names, or the fault of a byte above 15 (44_timers_keys.md R136, decision D12). -/
def keyOperand (b : Byte) : Except Fault Key :=
  if h : b.toNat < Config.nkey then .ok ⟨b.toNat, h⟩ else .error (.keyIndexOutOfRange b)

/-- The lowest key held, of keys `k`, `k + 1`, ... (44_timers_keys.md R135, decision D13). -/
def firstHeldFrom (k : Nat) : List Bool → Option Nat
  | [] => none
  | b :: bs => if b then some k else firstHeldFrom (k + 1) bs

/-- The lowest `i` with `K[i]`, if a key is held (44_timers_keys.md R135). -/
def State.firstHeld (s : State) : Option Nat := firstHeldFrom 0 s.keys.toList

/-- The address of a font glyph: the whole byte times 5, on base 0 (42_index_memory.md R112, decisions D10
and D11). -/
def glyphAddr (b : Byte) : Word := BitVec.ofNat 16 (b.toNat * Config.fontGlyphBytes)

/-- The decimal digits of a byte: hundreds, tens, ones (42_index_memory.md R113). -/
def bcdDigits (b : Byte) : List Byte :=
  [BitVec.ofNat 8 (b.toNat / 100), BitVec.ofNat 8 (b.toNat / 10 % 10), BitVec.ofNat 8 (b.toNat % 10)]

/-- `V[0]` to `V[x]`, in order (42_index_memory.md R114). -/
def State.regsUpTo (s : State) (x : Reg) : List Byte := s.v.toList.take (x.val + 1)

/-- `V[k] <- ` the first byte, `V[k + 1] <- ` the next, and so on (42_index_memory.md R115). A number above
15 names no register and writes nothing; no instruction gives one (60_exceptions.md R142). -/
def State.setRegsFrom (s : State) (k : Nat) : List Byte → State
  | [] => s
  | b :: bs => (if h : k < Config.nreg then s.setReg ⟨k, h⟩ b else s).setRegsFrom (k + 1) bs

end Sys2Proof.Machine
end

