-- ==== Sys2Proof/Machine/Alu.lean ====
section
/-!
DEFINITION. The register load, arithmetic, logic, shift and random instructions (41_register_alu.md). None
accesses memory, so none can fault. `setResult` writes the result first and VF second (R101).
-/

namespace Sys2Proof.Machine

/-- `LD Vx, kk` (R90). -/
def execLdImm (x : Reg) (kk : Byte) (s : State) : Result := .next (s.setReg x kk)

/-- `ADD Vx, kk`: VF is not written (R91, decision D5). -/
def execAddImm (x : Reg) (kk : Byte) (s : State) : Result := .next (s.setReg x (s.reg x + kk))

/-- `LD Vx, Vy` (R92). -/
def execLdReg (x y : Reg) (s : State) : Result := .next (s.setReg x (s.reg y))

/-- `OR Vx, Vy`, VF reset (R93). -/
def execOrReg (x y : Reg) (s : State) : Result := .next (s.setResult x (s.reg x ||| s.reg y) false)

/-- `AND Vx, Vy`, VF reset (R94). -/
def execAndReg (x y : Reg) (s : State) : Result := .next (s.setResult x (s.reg x &&& s.reg y) false)

/-- `XOR Vx, Vy`, VF reset (R95). -/
def execXorReg (x y : Reg) (s : State) : Result := .next (s.setResult x (s.reg x ^^^ s.reg y) false)

/-- `ADD Vx, Vy`, VF the carry (R96). -/
def execAddReg (x y : Reg) (s : State) : Result :=
  .next (s.setResult x (s.reg x + s.reg y) (carryOut (s.reg x) (s.reg y)))

/-- `SUB Vx, Vy`: `V[x] - V[y]`, VF the negation of borrow (R97). -/
def execSubReg (x y : Reg) (s : State) : Result :=
  .next (s.setResult x (s.reg x - s.reg y) (notBorrow (s.reg x) (s.reg y)))

/-- `SHR Vx (, Vy)`, VF the bit shifted out (R98). -/
def execShrReg (x y : Reg) (s : State) : Result :=
  .next (s.setResult x (s.shiftOperand x y >>> 1) (shiftedOutLow (s.shiftOperand x y)))

/-- `SUBN Vx, Vy`: `V[y] - V[x]`, VF the negation of borrow (R99). -/
def execSubnReg (x y : Reg) (s : State) : Result :=
  .next (s.setResult x (s.reg y - s.reg x) (notBorrow (s.reg y) (s.reg x)))

/-- `SHL Vx (, Vy)`, VF the bit shifted out (R100). -/
def execShlReg (x y : Reg) (s : State) : Result :=
  .next (s.setResult x (s.shiftOperand x y <<< 1) (shiftedOutHigh (s.shiftOperand x y)))

/-- `V[x] <- rnd_in & kk` for a given byte `rnd_in`, which is then used up (R102). -/
def randomInto (rndIn : Byte) (x : Reg) (kk : Byte) (s : State) : State := (s.setReg x (rndIn &&& kk)).drawn

/-- `RND Vx, kk`: `rnd_in` is the free value `Config.rndIn` at the run's next draw (R102, decision D8). -/
def execRnd (x : Reg) (kk : Byte) (s : State) : Result := .next (randomInto (Config.rndIn s.draws) x kk s)

end Sys2Proof.Machine
end

