-- ==== Sys2Proof/Machine/Control.lean ====
section
/-!
DEFINITION. The control-flow instructions (40_control_flow.md). Every meaning describes the execute phase:
`PC` already holds the address of the following instruction (30_encoding.md R62).
-/

namespace Sys2Proof.Machine

/-- `SYS nnn`: `raise InvalidOpcode(ir)`, always (R70, decision D2). -/
def execSys (nnn : Addr12) (_s : State) : Result := raise (.invalidOpcode (addrWord nnn))

/-- `RET`: `PC` takes the popped word, all 16 bits (R71). -/
def execRet (s : State) : Result :=
  match pop s with
  | .error f => raise f
  | .ok (w, t) => .next (t.setPc w)

/-- `JP nnn` (R72). -/
def execJp (nnn : Addr12) (s : State) : Result := .next (s.setPc (addrWord nnn))

/-- `CALL nnn`: pushes the return address and jumps (R73). -/
def execCall (nnn : Addr12) (s : State) : Result :=
  match push s s.pc with
  | .error f => raise f
  | .ok t => .next (t.setPc (addrWord nnn))

/-- `JP V0, nnn`: the sum is not reduced to 12 bits (R74, decision D7). -/
def execJpV0 (nnn : Addr12) (s : State) : Result := .next (s.setPc (addrWord nnn + byteWord (s.reg v0)))

/-- `SE Vx, kk` (R75). -/
def execSeImm (x : Reg) (kk : Byte) (s : State) : Result := .next (skipIf (s.reg x == kk) s)

/-- `SNE Vx, kk` (R76). -/
def execSneImm (x : Reg) (kk : Byte) (s : State) : Result := .next (skipIf (s.reg x != kk) s)

/-- `SE Vx, Vy` (R77). -/
def execSeReg (x y : Reg) (s : State) : Result := .next (skipIf (s.reg x == s.reg y) s)

/-- `SNE Vx, Vy` (R78). -/
def execSneReg (x y : Reg) (s : State) : Result := .next (skipIf (s.reg x != s.reg y) s)

end Sys2Proof.Machine
end

