-- ==== Sys2Proof/Machine/Display.lean ====
section
/-!
DEFINITION. The display instructions (43_display.md): clear, and the XOR sprite draw with wrap-around and
collision. A draw in progress is a pair: the framebuffer, and whether a lit cell was toggled so far.
-/

namespace Sys2Proof.Machine

/-- The column of sprite column `c`: `(x0 + c) mod 64` (R122). -/
def spriteColumn (x0 : Byte) (c : Nat) : Column := Fin.ofNat Config.fbWidth (x0.toNat + c)

/-- The row of sprite row `r`: `(y0 + r) mod 32` (R122). -/
def spriteRow (y0 : Byte) (r : Nat) : Line := Fin.ofNat Config.fbHeight (y0.toNat + r)

/-- Bit `7 - c` of a row byte is the pixel of column `c` (R123, decision D9). -/
def spriteBit (b : Byte) (c : Nat) : Bool := b.getLsbD (7 - c)

/-- Toggles one cell; a lit cell that is toggled is a collision (R122, R124). -/
def drawPixel (px : Column) (py : Line) (d : Framebuffer × Bool) : Framebuffer × Bool :=
  (d.1.toggle px py, d.2 || d.1.cell px py)

/-- Draws the columns `c`, for each set bit, of the row byte `b` in the framebuffer row `py` (R122). -/
def drawColumns (x0 : Byte) (py : Line) (b : Byte) : List Nat → Framebuffer × Bool → Framebuffer × Bool
  | [], d => d
  | c :: cs, d =>
    drawColumns x0 py b cs (if spriteBit b c then drawPixel (spriteColumn x0 c) py d else d)

/-- Draws the row bytes of a sprite as its rows `r`, `r + 1`, ... (R122). -/
def drawRows (x0 y0 : Byte) (r : Nat) : List Byte → Framebuffer × Bool → Framebuffer × Bool
  | [], d => d
  | b :: bs, d =>
    drawRows x0 y0 (r + 1) bs (drawColumns x0 (spriteRow y0 r) b (List.range Config.spriteWidth) d)

/-- The framebuffer after a sprite is drawn at (`x0`, `y0`), and whether it collided. -/
def drawSprite (x0 y0 : Byte) (rows : List Byte) (f : Framebuffer) : Framebuffer × Bool :=
  drawRows x0 y0 0 rows (f, false)

/-- `CLS` (R121). -/
def execCls (s : State) : Result := .next (s.setFb Framebuffer.clear)

/-- `DRW Vx, Vy, n`: `n` row bytes from `I`, drawn at (`V[x]`, `V[y]`); VF is the collision (R122). The row
bytes are read before the first cell is toggled; no cell is in memory, so the order is not observable
(assumption log 8). -/
def execDrw (x y : Reg) (n : RowCount) (s : State) : Result :=
  match readBytes s s.dataAddr n.val with
  | .error f => raise f
  | .ok rows =>
    .next ((s.setFb (drawSprite (s.reg x) (s.reg y) rows s.fb).1).setFlag
      (drawSprite (s.reg x) (s.reg y) rows s.fb).2)

end Sys2Proof.Machine
end

