-- ==== Sys2Proof/Machine/IndexMemory.lean ====
section
/-!
DEFINITION. The index register and memory instructions (42_index_memory.md). `I` is the base of every data
access and no access changes it (R116, decision D6).
-/

namespace Sys2Proof.Machine

/-- `LD I, nnn` (R110). -/
def execLdI (nnn : Addr12) (s : State) : Result := .next (s.setI (addrWord nnn))

/-- `ADD I, Vx`: a 16-bit wrapping add, VF from the stored result (R111, decisions D18 and D19). -/
def execAddI (x : Reg) (s : State) : Result :=
  .next ((s.setI (s.i + byteWord (s.reg x))).setFlag (indexOverflow (s.i + byteWord (s.reg x))))

/-- `LD F, Vx` (R112). -/
def execLdF (x : Reg) (s : State) : Result := .next (s.setI (glyphAddr (s.reg x)))

/-- `LD B, Vx`: hundreds, tens and ones at `I`, `I + 1`, `I + 2` (R113). -/
def execLdB (x : Reg) (s : State) : Result := finish (writeBytes s s.dataAddr (bcdDigits (s.reg x)))

/-- `LD [I], Vx`: `V[0]` to `V[x]` to memory (R114). -/
def execStoreRegs (x : Reg) (s : State) : Result := finish (writeBytes s s.dataAddr (s.regsUpTo x))

/-- `LD Vx, [I]`: `V[0]` to `V[x]` from memory (R115). -/
def execLoadRegs (x : Reg) (s : State) : Result :=
  match readBytes s s.dataAddr (x.val + 1) with
  | .error f => raise f
  | .ok bs => .next (s.setRegsFrom 0 bs)

end Sys2Proof.Machine
end

