-- ==== Sys2Proof/Machine/TimersKeys.lean ====
section
/-!
DEFINITION. The timer and key instructions (44_timers_keys.md).
-/

namespace Sys2Proof.Machine

/-- `LD Vx, DT` (R130). -/
def execLdVxDt (x : Reg) (s : State) : Result := .next (s.setReg x s.dt)

/-- `LD DT, Vx` (R131). -/
def execLdDtVx (x : Reg) (s : State) : Result := .next (s.setDt (s.reg x))

/-- `LD ST, Vx` (R132). -/
def execLdStVx (x : Reg) (s : State) : Result := .next (s.setSt (s.reg x))

/-- Skips by a test of the key that `V[x]` names; a byte above 15 faults (R136). -/
def skipByKey (test : Bool → Bool) (x : Reg) (s : State) : Result :=
  match keyOperand (s.reg x) with
  | .error f => raise f
  | .ok k => .next (skipIf (test (s.key k)) s)

/-- `SKP Vx`: skips when the key is pressed (R133). -/
def execSkp (x : Reg) (s : State) : Result := skipByKey (fun pressed => pressed) x s

/-- `SKNP Vx`: skips when the key is not pressed (R134, decision D14). -/
def execSknp (x : Reg) (s : State) : Result := skipByKey (fun pressed => !pressed) x s

/-- `LD Vx, K`: the lowest key held, or back to this instruction when none is (R135, decision D13). -/
def execLdVxK (x : Reg) (s : State) : Result :=
  match s.firstHeld with
  | some k => .next (s.setReg x (BitVec.ofNat 8 k))
  | none => .next (s.setPc (s.pc - 2))

end Sys2Proof.Machine
end

