-- ==== Sys2Proof/Machine/Events.lean ====
section
/-!
DEFINITION. The five events of the host (00_scope.md R6), each one atomic transition, and the two outputs the
host reads between events. No event but `reset` has effect while `FAULT` is set (60_exceptions.md R145).
-/

namespace Sys2Proof.Machine

/-- The event `reset`: every piece of state of the spec takes its reset value, at any time, faulted or not
(70_reset_and_hazards.md R160). The model's own fields stand: the parameter, the draws and the host's
further events are no state of the core (assumption log 2, 3, 4). -/
def resetEvent (s : State) : State :=
  { State.resetFor s.shiftSrc with draws := s.draws, host := s.host }

/-- `load(bytes, offset)` while it is accepted: copies the bytes, or raises `LoadOutOfRange` and writes none
(20_memory.md R36). -/
def loadBytes (bytes : List Byte) (offset : Word) (s : State) : Result :=
  if Config.memSize < offset.toNat + bytes.length then raise (.loadOutOfRange (offset.toNat + bytes.length))
  else finish (writeBytes s offset.toNat bytes)

/-- The event `load`: no effect once `RUN` is true (20_memory.md R36, 10_state.md R19, decision D22). -/
def loadEvent (bytes : List Byte) (offset : Word) (s : State) : Result :=
  unlessFaulted s (if s.run then .next s else loadBytes bytes offset s)

/-- One timer's count: down by 1 if nonzero, no wrap (60_exceptions.md R150). -/
def countDown (b : Byte) : Byte := if b = 0 then 0 else b - 1

/-- The event `tick_timers` (60_exceptions.md R150). -/
def tickTimersEvent (s : State) : Result :=
  unlessFaulted s (.next ((s.setDt (countDown s.dt)).setSt (countDown s.st)))

/-- The event `press_key(index, pressed)` (60_exceptions.md R153). -/
def pressKeyEvent (index : Key) (pressed : Bool) (s : State) : Result :=
  unlessFaulted s (.next (s.setKey index pressed))

/-- The decode and execute phases of a fetched word (30_encoding.md R54, R62). -/
def decodeAndExecute (ir : Word) (s : State) : Result :=
  match decodeWord ir with
  | .error _ => raise (.invalidOpcode ir)
  | .ok i => exec i s

/-- The event `tick`: one fetch, decode, execute, in that order (30_encoding.md R62, 60_exceptions.md R143). -/
def tick (s : State) : Result :=
  unlessFaulted s
    (match fetch s.start with
    | .error f => raise f
    | .ok (ir, t) => decodeAndExecute ir t)

/-- The transition of one host event. -/
def hostEvent (e : HostEvent) (s : State) : Result :=
  match e with
  | .reset => .next (resetEvent s)
  | .load bytes offset => loadEvent bytes offset s
  | .tick => tick s
  | .tickTimers => tickTimersEvent s
  | .pressKey index pressed => pressKeyEvent index pressed s

/-- The event the host issues next, and the state without it in the queue: the first queued event, or `tick`
when none is queued (assumption log 2). -/
def State.nextEvent (s : State) : HostEvent × State :=
  match s.host with
  | [] => (.tick, s)
  | e :: rest => (e, s.setHost rest)

/-- The machine at reset, for either value of `SHIFT_SRC`, whose host is about to start a run: the font table,
then the ROM image, then a `tick` at a time (70_reset_and_hazards.md R163, 42_index_memory.md R117). -/
def State.startUp (src : Config.ShiftSrc) (rom : List Byte) : State :=
  (State.resetFor src).setHost [.load Config.fontTable Config.fontBase, .load rom Config.romBase]

/-- The output `sound_active`: `ST > 2` (60_exceptions.md R152). -/
def State.soundActive (s : State) : Bool := decide (Config.soundThreshold < s.st.toNat)

/-- The output `screen_buffer`: the 2048 cells, row-major, width 64 (60_exceptions.md R154). -/
def State.screenBuffer (s : State) : List Bool := s.fb.toList.flatMap (fun row => row.toList)

end Sys2Proof.Machine
end

