-- ==== Sys2Proof/Machine/Step.lean ====
section
/-!
DEFINITION. One step of the machine: the transition of the event the host issues next ("one `tick` is one
step, one `tick_timers` is one step, and any interleaving is admitted", 70_reset_and_hazards.md R171), and the
placing of an instruction where the next step fetches it.
-/

namespace Sys2Proof.Machine

def step (s : State) : Host.Outcome State Fault Refusal := hostEvent s.nextEvent.1 s.nextEvent.2

/-- `s` with the instruction whose bits are `w` stored where the next step fetches (assumption log 6): the two
bytes at `PC`, high byte first. So that the next step is a `tick` that fetches there, `FAULT` is cleared, a
`PC` from which no word can be fetched is put at `PC_RESET`, and a `tick` is put before the queued events when
there are any. -/
def State.withFetchWord (s : State) (nbits w : Nat) : State :=
  let pc := if s.pc.toNat + 1 < Config.memSize then s.pc else Config.pcReset
  { s with
    pc := pc
    fault := none
    host := if s.host.isEmpty then [] else .tick :: s.host
    mem := s.mem.write2 pc.toNat (BitVec.ofNat 16 (w % 2 ^ nbits)) }

end Sys2Proof.Machine
end

