-- ==== Sys2Proof/Safety.lean ====
section
/-!
DEFINITION. The terms claims are stated in: what an instruction leaves unchanged, which instruction a `tick`
executes, the invariant of the machine, what a sprite covers, and when a program has ended.
-/

namespace Sys2Proof.Machine

/-! ### Frames -/

/-- The pieces of state an instruction may write besides registers and bytes of memory. -/
inductive Piece where
  | i
  | pc
  | sp
  | dt
  | st
  | keys
  | screen
  | draws
deriving DecidableEq, Repr

/-- From `s` to `t` nothing changes but the registers `regs`, the `pieces`, and the bytes of memory at the
addresses `stored`. `FAULT`, `RUN`, the parameter `SHIFT_SRC` and the host's queue never change. -/
def Frame (regs : Reg → Prop) (pieces : List Piece) (stored : Nat → Prop) (s t : State) : Prop :=
  (∀ r, ¬ regs r → t.reg r = s.reg r) ∧
  (.i ∉ pieces → t.i = s.i) ∧
  (.pc ∉ pieces → t.pc = s.pc) ∧
  (.sp ∉ pieces → t.sp = s.sp) ∧
  (.dt ∉ pieces → t.dt = s.dt) ∧
  (.st ∉ pieces → t.st = s.st) ∧
  (.keys ∉ pieces → ∀ k, t.key k = s.key k) ∧
  (.screen ∉ pieces → ∀ px py, t.pixel px py = s.pixel px py) ∧
  (.draws ∉ pieces → t.draws = s.draws) ∧
  (∀ a, ¬ stored a → t.byteAt a = s.byteAt a) ∧
  t.fault = s.fault ∧ t.run = s.run ∧ t.shiftSrc = s.shiftSrc ∧ t.host = s.host

/-- No general register. -/
def noReg (_ : Reg) : Prop := False

/-- No byte of memory. -/
def noByte (_ : Nat) : Prop := False

/-- The outcome with the next state, if there is one, changed by `f`. -/
def mapNext (f : State → State) : Result → Result
  | .next t => .next (f t)
  | .fault g => .fault g
  | .refused r => .refused r

/-! ### The tick -/

/-- The two bytes at `PC` as a word (30_encoding.md R62). -/
def State.fetched (s : State) : Word := wordOfBytes (s.byteAt s.pc.toNat) (s.byteAt (s.pc.toNat + 1))

/-- The `tick` from `s` fetches in range and decodes the instruction `i`. -/
def Executes (s : State) (i : Instr) : Prop := s.pc.toNat ≤ 0xFFE ∧ decodeWord s.fetched = .ok i

/-- The lowest out-of-range address of an access that starts at `a` and leaves memory (60_exceptions.md
R141). -/
def faultEdge (a : Nat) : Nat := if 0xFFF < a then a else 0x1000

/-! ### The invariant -/

/-- The registers, timers and screen of a machine that has executed nothing (10_state.md R24). -/
def Unstarted (s : State) : Prop :=
  (∀ r, s.reg r = 0) ∧ s.i = 0 ∧ s.pc = Config.pcReset ∧ s.sp = Config.spReset ∧ s.dt = 0 ∧ s.st = 0 ∧
  ∀ px py, s.pixel px py = false

/-- What holds at reset and after every step: memory is in the canonical form of the model's representation
(assumption log 5), and so within its 4096 bytes, no fault is latched (assumption log 1), `SP` is even
(20_memory.md R38), and before the first `tick` every register, both timers and the screen are as reset left
them (10_state.md R25). -/
def State.Inv (s : State) : Prop :=
  s.mem.wf = true ∧ s.fault = none ∧ s.sp.toNat % 2 = 0 ∧ (s.run = false → Unstarted s)

/-! ### Sprites and ended programs -/

/-- Some set bit of the `n`-row sprite at `I`, drawn at (`x0`, `y0`), falls on the cell (`px`, `py`)
(43_display.md R122 to R124). -/
def SpriteCovers (s : State) (x0 y0 : Byte) (n : Nat) (px : Column) (py : Line) : Prop :=
  ∃ r c : Nat, r < n ∧ c < Config.spriteWidth ∧ px.val = (x0.toNat + c) % Config.fbWidth ∧
    py.val = (y0.toNat + r) % Config.fbHeight ∧
    (s.byteAt (s.i.toNat + r)).getLsbD (7 - c) = true

/-- "The program has ended at address `a`": `PC` is at a jump to its own address (70_reset_and_hazards.md
R165). -/
def EndedAt (a : Nat) (s : State) : Prop :=
  s.fault = none ∧ s.pc.toNat = a ∧ a ≤ 0xFFE ∧ s.fetched.toNat = 0x1000 + a

/-- A step that neither faults nor is refused. -/
def StepsSafely (s : State) : Prop := ∃ t, step s = .next t

end Sys2Proof.Machine
end

