-- ==== Sys2Proof/Certificates/Slice0/Obligations.lean ====
section
/-!
DEFINITION. The statements for the provers. Each docstring names the rules of `spec/` it formalises; where a
clause rests on a choice of the spec that the spec marks as its own, or of the model, the docstring says so.
-/

open Sys2Proof Sys2Proof.Machine

/-! ### Memory (20_memory.md) -/

/-- R31, whole. -/
def Obligations.ByteReadInRangeOrFault : Prop :=
  ∀ (s : State) (a : Nat),
    (a ≤ 0xFFF → memRead1 s a = .ok (s.byteAt a)) ∧
    (0xFFF < a → memRead1 s a = .error (.memoryOutOfRange a))

/-- R32, whole: the byte is written and nothing else changes, or the access faults. -/
def Obligations.ByteWriteChangesOneCell : Prop :=
  ∀ (s : State) (a : Nat) (b : Byte),
    (a ≤ 0xFFF → ∃ t, memWrite1 s a b = .ok t ∧ t.byteAt a = b ∧ Frame noReg [] (· = a) s t) ∧
    (0xFFF < a → memWrite1 s a b = .error (.memoryOutOfRange a))

/-- R33, whole: big-endian, or the fault with the lowest address above 0xFFF. -/
def Obligations.PairReadIsBigEndian : Prop :=
  ∀ (s : State) (a : Nat),
    (a + 1 ≤ 0xFFF → ∃ w, memRead2 s a = .ok w ∧
      w.toNat = (s.byteAt a).toNat * 256 + (s.byteAt (a + 1)).toNat) ∧
    (a = 0xFFF → memRead2 s a = .error (.memoryOutOfRange 0x1000)) ∧
    (0xFFF < a → memRead2 s a = .error (.memoryOutOfRange a))

/-- R34, whole: the high byte at `a`, the low byte at `a + 1`, the value reads back, nothing else changes; or
the fault, and no byte is written (the answer holds no state). -/
def Obligations.PairWriteRoundTrips : Prop :=
  ∀ (s : State) (a : Nat) (w : Word),
    (a + 1 ≤ 0xFFF → ∃ t, memWrite2 s a w = .ok t ∧
      (t.byteAt a).toNat = w.toNat / 256 ∧ (t.byteAt (a + 1)).toNat = w.toNat % 256 ∧
      memRead2 t a = .ok w ∧ Frame noReg [] (fun b => b = a ∨ b = a + 1) s t) ∧
    (a = 0xFFF → memWrite2 s a w = .error (.memoryOutOfRange 0x1000)) ∧
    (0xFFF < a → memWrite2 s a w = .error (.memoryOutOfRange a))

/-- R45 (the spec derives it): a word stored where `PC` points is what the next fetch reads. -/
def Obligations.StoredWordIsFetched : Prop :=
  ∀ (s : State) (a w : Word), a.toNat ≤ 0xFFE →
    ∃ t, memWrite2 s a.toNat w = .ok t ∧ fetch (t.setPc a) = .ok (w, t.setPc (a + 2))

/-- R141 (the spec derives it from R31 to R35): when each access faults and what it reports. -/
def Obligations.AccessLeavingMemoryFaults : Prop :=
  ∀ (s : State) (nnn : Addr12) (x y : Reg) (n : RowCount),
    (s.fault = none → 0xFFE < s.pc.toNat →
      tick s = .fault (.memoryOutOfRange (faultEdge s.pc.toNat))) ∧
    (0xFFE < s.sp.toNat → exec .ret s = .fault (.memoryOutOfRange (faultEdge s.sp.toNat))) ∧
    (0xFFE < (s.sp + 2).toNat →
      exec (.call nnn) s = .fault (.memoryOutOfRange (faultEdge (s.sp + 2).toNat))) ∧
    (1 ≤ n.val → 0xFFF < s.i.toNat + n.val - 1 →
      exec (.drw x y n) s = .fault (.memoryOutOfRange (faultEdge s.i.toNat))) ∧
    (0xFFF < s.i.toNat + 2 → exec (.ldB x) s = .fault (.memoryOutOfRange (faultEdge s.i.toNat))) ∧
    (0xFFF < s.i.toNat + x.val →
      exec (.storeRegs x) s = .fault (.memoryOutOfRange (faultEdge s.i.toNat)) ∧
      exec (.loadRegs x) s = .fault (.memoryOutOfRange (faultEdge s.i.toNat)))

/-! ### Encoding (30_encoding.md) -/

/-- R50 to R55: decoding the word, or the two bytes, of a well-formed instruction gives it back, for every
value of every operand field. -/
def Obligations.DecodeInvertsEncode : Prop :=
  ∀ i : Instr, i.wellFormed = true →
    decodeWord (encode i) = .ok i ∧
    ∃ hi lo, encodeBytes i = [hi, lo] ∧ decodeBytes hi lo = .ok i

/-- R54: a word has one meaning; the instruction it decodes to is well-formed and encodes to that word. -/
def Obligations.EncodeInvertsDecode : Prop :=
  ∀ (w : Word) (i : Instr), decodeWord w = .ok i → encode i = w ∧ i.wellFormed = true

/-- R56 (the spec derives it from R54): exactly these words are invalid; the `SYS` space (decision D2, log
entry 7) is the row of its own name. -/
def Obligations.InvalidWordsAreExactlyTheTable : Prop :=
  ∀ w : Word,
    ((∃ e, decodeWord w = .error e) ↔
      (w.toNat / 4096 = 0x5 ∧ w.toNat % 16 ≠ 0) ∨
      (w.toNat / 4096 = 0x8 ∧ w.toNat % 16 ∈ [0x8, 0x9, 0xA, 0xB, 0xC, 0xD, 0xF]) ∨
      (w.toNat / 4096 = 0x9 ∧ w.toNat % 16 ≠ 0) ∨
      (w.toNat / 4096 = 0xE ∧ w.toNat % 256 ∉ [0x9E, 0xA1]) ∨
      (w.toNat / 4096 = 0xF ∧
        w.toNat % 256 ∉ [0x07, 0x0A, 0x15, 0x18, 0x1E, 0x29, 0x33, 0x55, 0x65])) ∧
    ((∃ nnn, decodeWord w = .ok (.sys nnn)) ↔
      w.toNat / 4096 = 0x0 ∧ w.toNat % 4096 ∉ [0x0E0, 0x0EE])

/-- R54, R55 and 95_test_vectors.md section 2: words written out bit by bit. -/
def Obligations.DecodesWrittenWords : Prop :=
  decodeWord 0b0000000011100000 = .ok .cls ∧
  decodeWord 0b0000000011101110 = .ok .ret ∧
  decodeWord 0b0001101010111100 = .ok (.jp 0xABC) ∧
  decodeWord 0b0110101000000101 = .ok (.ldImm 0xA 0x05) ∧
  decodeWord 0b1000000100100100 = .ok (.addReg 1 2) ∧
  decodeWord 0b1101000100100101 = .ok (.drw 1 2 5) ∧
  decodeWord 0b1110010110100001 = .ok (.sknp 5) ∧
  decodeWord 0b1111101000011110 = .ok (.addI 0xA) ∧
  decodeWord 0b0101000100100001 = .error .skipEqual

/-! ### The tick and the step (30_encoding.md R62, 60_exceptions.md R143) -/

/-- R62, R143: the phases of a `tick` in order, each fault ending it. The byte `rnd_in` is the free value of
log entry 3; the word of the `SYS` space raises in the execute phase (log entry 7). -/
def Obligations.TickFetchesDecodesExecutes : Prop :=
  ∀ s : State,
    (∀ f, s.fault = some f → tick s = .next s) ∧
    (s.fault = none → 0xFFE < s.pc.toNat →
      tick s = .fault (.memoryOutOfRange (faultEdge s.pc.toNat))) ∧
    (s.fault = none → s.pc.toNat ≤ 0xFFE → ∀ e, decodeWord s.fetched = .error e →
      tick s = .fault (.invalidOpcode s.fetched)) ∧
    (s.fault = none → ∀ i, Executes s i → tick s = exec i (s.start.setPc (s.pc + 2)))

/-- R62 with the queue of log entry 2: when the next event is a `tick` and the two bytes at `PC` decode to
the well-formed instruction `i`, the step is `exec i` on the state with `RUN` set, `PC` past the instruction
and the event taken from the queue. -/
def Obligations.StepRunsTheDecodedInstruction : Prop :=
  ∀ (s : State) (i : Instr), s.fault = none → s.pc.toNat ≤ 0xFFE → i.wellFormed = true →
    decodeBytes (s.byteAt s.pc.toNat) (s.byteAt (s.pc.toNat + 1)) = .ok i →
    (s.host = [] → step s = exec i (s.start.setPc (s.pc + 2))) ∧
    (∀ rest, s.host = .tick :: rest → step s = exec i ((s.setHost rest).start.setPc (s.pc + 2)))

/-- The model's choice (log entry 2): the step is the event at the head of the queue, or a `tick` when the
queue is empty (R171: one event is one step, and any interleaving is admitted). -/
def Obligations.StepIssuesTheQueuedEvent : Prop :=
  ∀ s : State,
    (s.host = [] → step s = hostEvent .tick s) ∧
    (∀ e rest, s.host = e :: rest → step s = hostEvent e (s.setHost rest))

/-! ### Control flow (40_control_flow.md) -/

/-- R70 (decision D2): `SYS nnn` always raises `InvalidOpcode` with its own word. -/
def Obligations.SysRaisesInvalidOpcode : Prop :=
  ∀ (nnn : Addr12) (s : State), exec (.sys nnn) s = .fault (.invalidOpcode (encode (.sys nnn)))

/-- R71 (decisions D18, D26): `RET` completes wherever the word at `SP` is in range. -/
def Obligations.RetPopsThePc : Prop :=
  ∀ s : State, s.sp.toNat ≤ 0xFFE →
    ∃ t, exec .ret s = .next t ∧
      t.pc.toNat = (s.byteAt s.sp.toNat).toNat * 256 + (s.byteAt (s.sp.toNat + 1)).toNat ∧
      t.sp = s.sp - 2 ∧ Frame noReg [.pc, .sp] noByte s t

/-- R72, whole: the encoding, the jump, that a jump to 0xFFF is accepted while the next fetch faults, and that a
jump to its own address leaves a running machine as it is. -/
def Obligations.JpSetsThePc : Prop :=
  ∀ (nnn : Addr12) (s : State),
    decodeWord ((0x1 : BitVec 4) ++ nnn) = .ok (.jp nnn) ∧
    ∃ t, exec (.jp nnn) s = .next t ∧ t.pc.toNat = nnn.toNat ∧ Frame noReg [.pc] noByte s t ∧
      (nnn = 0xFFF → s.fault = none → tick t = .fault (.memoryOutOfRange 0x1000)) ∧
      (s.fault = none → s.run = true → Executes s (.jp nnn) → s.pc.toNat = nnn.toNat → tick s = .next s)

/-- R73 (decisions D18, D26): `CALL` advances `SP`, writes the return address there, high byte first, and
jumps, wherever the two bytes at the new `SP` are in range. -/
def Obligations.CallPushesAndJumps : Prop :=
  ∀ (nnn : Addr12) (s : State), s.pushAddr.toNat ≤ 0xFFE →
    ∃ t, exec (.call nnn) s = .next t ∧ t.pc.toNat = nnn.toNat ∧
      s.pushAddr.toNat = (s.sp.toNat + 2) % 65536 ∧ t.sp = s.pushAddr ∧
      (t.byteAt s.pushAddr.toNat).toNat = s.pc.toNat / 256 ∧
      (t.byteAt (s.pushAddr.toNat + 1)).toNat = s.pc.toNat % 256 ∧
      Frame noReg [.pc, .sp] (fun a => a = s.pushAddr.toNat ∨ a = s.pushAddr.toNat + 1) s t

/-- R71 and R73 together: a `RET` right after a `CALL` resumes after the `CALL`, with `SP` as before and
nothing changed but the two bytes of the stack. -/
def Obligations.RetUndoesCall : Prop :=
  ∀ (nnn : Addr12) (s : State), s.pushAddr.toNat ≤ 0xFFE →
    ∃ t u, exec (.call nnn) s = .next t ∧ exec .ret t = .next u ∧
      Frame noReg [] (fun a => a = s.pushAddr.toNat ∨ a = s.pushAddr.toNat + 1) s u

/-- R74 (decision D7): the sum is exact, since it stays below 2^16. -/
def Obligations.JpV0AddsTheOffset : Prop :=
  ∀ (nnn : Addr12) (s : State),
    ∃ t, exec (.jpV0 nnn) s = .next t ∧ t.pc.toNat = nnn.toNat + (s.reg 0).toNat ∧
      Frame noReg [.pc] noByte s t

/-- R75 to R79 (the sense of each comparison is the spec's general knowledge): `PC`, already past the skip,
advances by 2 more exactly when the condition holds. -/
def Obligations.SkipsCompareRegisters : Prop :=
  ∀ (x y : Reg) (kk : Byte) (s : State),
    (∃ t, exec (.seImm x kk) s = .next t ∧ t.pc = (if s.reg x = kk then s.pc + 2 else s.pc) ∧
      Frame noReg [.pc] noByte s t) ∧
    (∃ t, exec (.sneImm x kk) s = .next t ∧ t.pc = (if s.reg x = kk then s.pc else s.pc + 2) ∧
      Frame noReg [.pc] noByte s t) ∧
    (∃ t, exec (.seReg x y) s = .next t ∧ t.pc = (if s.reg x = s.reg y then s.pc + 2 else s.pc) ∧
      Frame noReg [.pc] noByte s t) ∧
    (∃ t, exec (.sneReg x y) s = .next t ∧ t.pc = (if s.reg x = s.reg y then s.pc else s.pc + 2) ∧
      Frame noReg [.pc] noByte s t)

/-! ### Registers and ALU (41_register_alu.md)

In each statement the clause about `V[x]` is for `x` other than VF where the instruction writes a flag, and
the clause about VF holds for every `x`, VF included (R101, decision D4). -/

/-- R90, whole. -/
def Obligations.LdImmWritesTheByte : Prop :=
  ∀ (x : Reg) (kk : Byte) (s : State),
    decodeWord ((0x6 : BitVec 4) ++ BitVec.ofFin (w := 4) x ++ kk) = .ok (.ldImm x kk) ∧
    ∃ t, exec (.ldImm x kk) s = .next t ∧ t.reg x = kk ∧ Frame (· = x) [] noByte s t

/-- R91 (decision D5): the sum modulo 256; VF is not written unless it is `V[x]`. -/
def Obligations.AddImmWrapsWithoutFlag : Prop :=
  ∀ (x : Reg) (kk : Byte) (s : State),
    ∃ t, exec (.addImm x kk) s = .next t ∧
      (t.reg x).toNat = ((s.reg x).toNat + kk.toNat) % 256 ∧ Frame (· = x) [] noByte s t

/-- R92 (the operation is the spec's general knowledge). -/
def Obligations.LdRegCopies : Prop :=
  ∀ (x y : Reg) (s : State),
    ∃ t, exec (.ldReg x y) s = .next t ∧ t.reg x = s.reg y ∧ Frame (· = x) [] noByte s t

/-- R93 to R95: the bitwise result, and VF reset to 0 always. -/
def Obligations.LogicResetsTheFlag : Prop :=
  ∀ (x y : Reg) (s : State),
    (∃ t, exec (.orReg x y) s = .next t ∧
      (x ≠ vF → ∀ b < 8, (t.reg x).getLsbD b = ((s.reg x).getLsbD b || (s.reg y).getLsbD b)) ∧
      t.reg vF = 0 ∧ Frame (fun r => r = x ∨ r = vF) [] noByte s t) ∧
    (∃ t, exec (.andReg x y) s = .next t ∧
      (x ≠ vF → ∀ b < 8, (t.reg x).getLsbD b = ((s.reg x).getLsbD b && (s.reg y).getLsbD b)) ∧
      t.reg vF = 0 ∧ Frame (fun r => r = x ∨ r = vF) [] noByte s t) ∧
    (∃ t, exec (.xorReg x y) s = .next t ∧
      (x ≠ vF → ∀ b < 8, (t.reg x).getLsbD b = ((s.reg x).getLsbD b ^^ (s.reg y).getLsbD b)) ∧
      t.reg vF = 0 ∧ Frame (fun r => r = x ∨ r = vF) [] noByte s t)

/-- R96: the encoding, the sum modulo 256, and VF the carry. That with `x = 0xF` the carry is what VF keeps
is decision D4. -/
def Obligations.AddRegSetsTheCarry : Prop :=
  ∀ (x y : Reg) (s : State),
    decodeWord ((0x8 : BitVec 4) ++ BitVec.ofFin (w := 4) x ++ BitVec.ofFin (w := 4) y ++ (0x4 : BitVec 4)) =
      .ok (.addReg x y) ∧
    ∃ t, exec (.addReg x y) s = .next t ∧
      (x ≠ vF → (t.reg x).toNat = ((s.reg x).toNat + (s.reg y).toNat) % 256) ∧
      (t.reg vF).toNat = (if 255 < (s.reg x).toNat + (s.reg y).toNat then 1 else 0) ∧
      Frame (fun r => r = x ∨ r = vF) [] noByte s t

/-- R97, R99, R103: the difference modulo 256, and VF the negation of the borrow. -/
def Obligations.SubtractsSetTheNotBorrow : Prop :=
  ∀ (x y : Reg) (s : State),
    (∃ t, exec (.subReg x y) s = .next t ∧
      (x ≠ vF → (t.reg x).toNat = ((s.reg x).toNat + 256 - (s.reg y).toNat) % 256) ∧
      (t.reg vF).toNat = (if (s.reg y).toNat ≤ (s.reg x).toNat then 1 else 0) ∧
      Frame (fun r => r = x ∨ r = vF) [] noByte s t) ∧
    (∃ t, exec (.subnReg x y) s = .next t ∧
      (x ≠ vF → (t.reg x).toNat = ((s.reg y).toNat + 256 - (s.reg x).toNat) % 256) ∧
      (t.reg vF).toNat = (if (s.reg x).toNat ≤ (s.reg y).toNat then 1 else 0) ∧
      Frame (fun r => r = x ∨ r = vF) [] noByte s t)

/-- R98, R100, R103 (decision D3, log entry 4): for either value of `SHIFT_SRC`, the source shifted by one and
VF the bit shifted out. -/
def Obligations.ShiftsSetTheBitShiftedOut : Prop :=
  ∀ (x y : Reg) (s : State) (src : Nat),
    src = (match s.shiftSrc with | .vx => (s.reg x).toNat | .vy => (s.reg y).toNat) →
    (∃ t, exec (.shrReg x y) s = .next t ∧
      (x ≠ vF → (t.reg x).toNat = src / 2) ∧ (t.reg vF).toNat = src % 2 ∧
      Frame (fun r => r = x ∨ r = vF) [] noByte s t) ∧
    (∃ t, exec (.shlReg x y) s = .next t ∧
      (x ≠ vF → (t.reg x).toNat = src * 2 % 256) ∧ (t.reg vF).toNat = src / 128 ∧
      Frame (fun r => r = x ∨ r = vF) [] noByte s t)

/-- R102 (decision D8, log entry 3): the masked free byte, no flag, and one byte used; for every byte
`rnd_in` the operation writes that byte masked. -/
def Obligations.RndMasksTheFreeByte : Prop :=
  ∀ (x : Reg) (kk : Byte) (s : State),
    (∃ t, exec (.rnd x kk) s = .next t ∧ t.reg x = Config.rndIn s.draws &&& kk ∧
      t.reg x &&& ~~~kk = 0 ∧ t.draws = s.draws + 1 ∧ Frame (· = x) [.draws] noByte s t) ∧
    (∀ rndIn : Byte, (randomInto rndIn x kk s).reg x = rndIn &&& kk)

/-! ### Index register and memory instructions (42_index_memory.md) -/

/-- R110 (the operation is the spec's general knowledge). -/
def Obligations.LdISetsTheIndex : Prop :=
  ∀ (nnn : Addr12) (s : State),
    ∃ t, exec (.ldI nnn) s = .next t ∧ t.i.toNat = nnn.toNat ∧ Frame noReg [.i] noByte s t

/-- R111 (decisions D18, D19): the 16-bit sum, and VF from the stored result, also when `x` is VF. -/
def Obligations.AddIFlagsTheStoredResult : Prop :=
  ∀ (x : Reg) (s : State),
    ∃ t, exec (.addI x) s = .next t ∧ t.i.toNat = (s.i.toNat + (s.reg x).toNat) % 65536 ∧
      (t.reg vF).toNat = (if 0x1000 ≤ t.i.toNat then 1 else 0) ∧ Frame (· = vF) [.i] noByte s t

/-- R112 (decisions D10, D11): the whole byte times 5. -/
def Obligations.LdFPointsAtTheGlyph : Prop :=
  ∀ (x : Reg) (s : State),
    ∃ t, exec (.ldF x) s = .next t ∧ t.i.toNat = (s.reg x).toNat * 5 ∧ Frame noReg [.i] noByte s t

/-- R113: the three decimal digits at `I`, `I + 1`, `I + 2`, wherever they are in range. -/
def Obligations.LdBStoresTheDigits : Prop :=
  ∀ (x : Reg) (s : State), s.dataAddr + 2 ≤ 0xFFF →
    ∃ t, exec (.ldB x) s = .next t ∧ s.dataAddr = s.i.toNat ∧
      (t.byteAt s.dataAddr).toNat = (s.reg x).toNat / 100 ∧
      (t.byteAt (s.dataAddr + 1)).toNat = (s.reg x).toNat / 10 % 10 ∧
      (t.byteAt (s.dataAddr + 2)).toNat = (s.reg x).toNat % 10 ∧
      Frame noReg [] (fun a => s.dataAddr ≤ a ∧ a ≤ s.dataAddr + 2) s t

/-- R114 (decision D6): `V[0]` to `V[x]` at `I` to `I + x`, `I` unchanged, wherever they are in range. -/
def Obligations.StoreRegsCopiesOut : Prop :=
  ∀ (x : Reg) (s : State), s.dataAddr + x.val ≤ 0xFFF →
    ∃ t, exec (.storeRegs x) s = .next t ∧ s.dataAddr = s.i.toNat ∧
      (∀ k : Reg, k ≤ x → t.byteAt (s.dataAddr + k.val) = s.reg k) ∧
      Frame noReg [] (fun a => s.dataAddr ≤ a ∧ a ≤ s.dataAddr + x.val) s t

/-- R115 (decision D6): `V[0]` to `V[x]` from `I` to `I + x`, the registers above untouched, wherever they are
in range. -/
def Obligations.LoadRegsCopiesIn : Prop :=
  ∀ (x : Reg) (s : State), s.i.toNat + x.val ≤ 0xFFF →
    ∃ t, exec (.loadRegs x) s = .next t ∧
      (∀ k : Reg, k ≤ x → t.reg k = s.byteAt (s.i.toNat + k.val)) ∧
      Frame (fun r => r ≤ x) [] noByte s t

/-! ### Display (43_display.md) -/

/-- R121, whole: the encoding, every cell unlit, and nothing else changed. -/
def Obligations.ClsClearsTheScreen : Prop :=
  ∀ s : State,
    decodeWord 0x00E0 = .ok .cls ∧
    ∃ t, exec .cls s = .next t ∧ (∀ px py, t.pixel px py = false) ∧ Frame noReg [.screen] noByte s t

/-- R122 and R124 (bit order by decision D9): the loop of the draw is one exclusive-or. Every cell a set bit
of the sprite falls on is inverted, every other is as before, and VF is 1 exactly when one of those cells was
lit before the instruction. Completes for every `n` when no byte is read out of range. -/
def Obligations.DrawIsOneExclusiveOr : Prop :=
  ∀ (x y : Reg) (n : RowCount) (s : State), (n.val = 0 ∨ s.i.toNat + n.val - 1 ≤ 0xFFF) →
    ∃ t, exec (.drw x y n) s = .next t ∧
      (∀ px py,
        (SpriteCovers s (s.reg x) (s.reg y) n.val px py → t.pixel px py = !(s.pixel px py)) ∧
        (¬ SpriteCovers s (s.reg x) (s.reg y) n.val px py → t.pixel px py = s.pixel px py)) ∧
      ((∃ px py, SpriteCovers s (s.reg x) (s.reg y) n.val px py ∧ s.pixel px py = true) →
        t.reg vF = 1) ∧
      ((¬ ∃ px py, SpriteCovers s (s.reg x) (s.reg y) n.val px py ∧ s.pixel px py = true) →
        t.reg vF = 0) ∧
      Frame (· = vF) [.screen] noByte s t

/-- R122, corner cases: drawing the same sprite of at most 15 rows twice at the same place restores the
framebuffer. -/
def Obligations.DrawTwiceRestoresTheScreen : Prop :=
  ∀ (x0 y0 : Byte) (rows : List Byte) (f : Framebuffer), rows.length ≤ 15 →
    (drawSprite x0 y0 rows (drawSprite x0 y0 rows f).1).1 = f

/-- R154, whole: the output is 2048 cells (the constant `FB_CELLS` of R4), element `py * 64 + px` being
`FB[px, py]`. -/
def Obligations.ScreenBufferIsRowMajor : Prop :=
  ∀ s : State, s.screenBuffer.length = Config.fbCells ∧ Config.fbCells = 2048 ∧
    ∀ (px : Fin 64) (py : Fin 32), s.screenBuffer[py.val * 64 + px.val]? = some (s.pixel px py)

/-! ### Timers and keys (44_timers_keys.md, 60_exceptions.md) -/

/-- R130 to R132 (directions by the spec's general knowledge): the three timer instructions. -/
def Obligations.TimerInstructionsCopy : Prop :=
  ∀ (x : Reg) (s : State),
    (∃ t, exec (.ldVxDt x) s = .next t ∧ t.reg x = s.dt ∧ Frame (· = x) [] noByte s t) ∧
    (∃ t, exec (.ldDtVx x) s = .next t ∧ t.dt = s.reg x ∧ Frame noReg [.dt] noByte s t) ∧
    (∃ t, exec (.ldStVx x) s = .next t ∧ t.st = s.reg x ∧ Frame noReg [.st] noByte s t)

/-- R133, R134, R136 (decision D14): with `V[x]` at most 15 the key skips complete, `SKP` on a pressed key and
`SKNP` on a released one. -/
def Obligations.KeySkipsTestTheLatch : Prop :=
  ∀ (x : Reg) (k : Key) (s : State), (s.reg x).toNat = k.val →
    (∃ t, exec (.skp x) s = .next t ∧ t.pc = (if s.key k = true then s.pc + 2 else s.pc) ∧
      Frame noReg [.pc] noByte s t) ∧
    (∃ t, exec (.sknp x) s = .next t ∧ t.pc = (if s.key k = true then s.pc else s.pc + 2) ∧
      Frame noReg [.pc] noByte s t)

/-- R136 (decision D12): with `V[x]` above 15 both key skips fault. -/
def Obligations.KeySkipsFaultAboveFifteen : Prop :=
  ∀ (x : Reg) (s : State), 15 < (s.reg x).toNat →
    exec (.skp x) s = .fault (.keyIndexOutOfRange (s.reg x)) ∧
    exec (.sknp x) s = .fault (.keyIndexOutOfRange (s.reg x))

/-- R135 (decision D13): the lowest key held goes to `V[x]`; with none held only `PC` moves back by 2. It
completes in every state. -/
def Obligations.KeyWaitTakesTheLowestKey : Prop :=
  ∀ (x : Reg) (s : State),
    (∀ k : Key, s.key k = true → (∀ j < k, s.key j = false) →
      ∃ t, exec (.ldVxK x) s = .next t ∧ (t.reg x).toNat = k.val ∧ Frame (· = x) [] noByte s t) ∧
    ((∀ k : Key, s.key k = false) →
      ∃ t, exec (.ldVxK x) s = .next t ∧ t.pc = s.pc - 2 ∧ Frame noReg [.pc] noByte s t)

/-- R135, R157: a `tick` of the wait with no key held leaves a running machine exactly as it was. -/
def Obligations.KeyWaitTickChangesNothing : Prop :=
  ∀ (x : Reg) (s : State), s.fault = none → s.run = true → Executes s (.ldVxK x) →
    (∀ k : Key, s.key k = false) → tick s = .next s

/-- R150, whole: both timers count down by 1 if nonzero, and nothing else changes. -/
def Obligations.TickTimersCountsDown : Prop :=
  ∀ s : State,
    (s.fault = none → ∃ t, hostEvent .tickTimers s = .next t ∧
      t.dt.toNat = s.dt.toNat - 1 ∧ t.st.toNat = s.st.toNat - 1 ∧ Frame noReg [.dt, .st] noByte s t) ∧
    (∀ f, s.fault = some f → hostEvent .tickTimers s = .next s)

/-- R151 (decision D25): no event but `reset`, and no instruction but `LD DT, Vx`, raises `DT`. -/
def Obligations.DelayTimerOnlyFalls : Prop :=
  ∀ (e : HostEvent) (s t : State), e ≠ .reset → hostEvent e s = .next t →
    (∀ x, e = .tick → ¬ Executes s (.ldDtVx x)) → t.dt.toNat ≤ s.dt.toNat

/-- R152, whole. -/
def Obligations.SoundIsActiveAboveTwo : Prop :=
  ∀ s : State, (s.soundActive = true ↔ 3 ≤ s.st.toNat) ∧ (s.soundActive = false ↔ s.st.toNat ≤ 2)

/-- R153 (decision D1): one entry of the latch is set or cleared, and nothing else changes. -/
def Obligations.PressKeyWritesOneEntry : Prop :=
  ∀ (k : Key) (pressed : Bool) (s : State),
    (s.fault = none → ∃ t, hostEvent (.pressKey k pressed) s = .next t ∧ t.key k = pressed ∧
      (∀ j, j ≠ k → t.key j = s.key j) ∧ Frame noReg [.keys] noByte s t) ∧
    (∀ f, s.fault = some f → hostEvent (.pressKey k pressed) s = .next s)

/-! ### Start-up, reset and faults -/

/-- R36 (decision D22): before the first `tick` the bytes are copied and nothing else changes, or the load
does not fit and faults; after it, or while a fault is latched, `load` has no effect. -/
def Obligations.LoadCopiesBeforeTheFirstTick : Prop :=
  ∀ (bytes : List Byte) (offset : Word) (s : State),
    (s.fault = none → s.run = false → offset.toNat + bytes.length ≤ 4096 →
      ∃ t, hostEvent (.load bytes offset) s = .next t ∧
        (∀ k < bytes.length, bytes[k]? = some (t.byteAt (offset.toNat + k))) ∧
        Frame noReg [] (fun a => offset.toNat ≤ a ∧ a < offset.toNat + bytes.length) s t) ∧
    (s.fault = none → s.run = false → 4096 < offset.toNat + bytes.length →
      hostEvent (.load bytes offset) s = .fault (.loadOutOfRange (offset.toNat + bytes.length))) ∧
    (s.run = true → hostEvent (.load bytes offset) s = .next s) ∧
    (∀ f, s.fault = some f → hostEvent (.load bytes offset) s = .next s)

/-- R163, R117 (the base 0 is decision D10, the font's bytes are the spec's general knowledge; the loads are
queued by log entry 2): whatever `SHIFT_SRC` and the ROM image, two loads from reset put the font and the image
into memory and change nothing else; an image of more than 3584 bytes faults, and without one the first `tick`
faults. -/
def Obligations.StartUpLoadsFontAndRom : Prop :=
  ∀ (src : Config.ShiftSrc) (rom : List Byte), ∃ u, step (State.startUp src rom) = .next u ∧
    (rom.length ≤ 3584 → ∃ t, step u = .next t ∧
      (∀ k < 80, Config.fontTable[k]? = some (t.byteAt k)) ∧
      (∀ k < rom.length, rom[k]? = some (t.byteAt (0x200 + k))) ∧
      Frame noReg [] (fun a => a < 80 ∨ (0x200 ≤ a ∧ a < 0x200 + rom.length)) (State.resetFor src) t ∧
      (rom = [] → step t = .fault (.invalidOpcode 0x0000))) ∧
    (3584 < rom.length → step u = .fault (.loadOutOfRange (0x200 + rom.length)))

/-- R24, whole: the reset state of the host's interface and the reset state for either value of `SHIFT_SRC`. -/
def Obligations.ResetStateHasTheTableValues : Prop :=
  ∀ s : State, (s = State.reset ∨ ∃ src, s = State.resetFor src) →
    (∀ r, s.reg r = 0) ∧ s.i = 0 ∧ s.pc = 0x200 ∧ s.sp = 0xFA0 ∧ s.dt = 0 ∧ s.st = 0 ∧
    (∀ k, s.key k = false) ∧ (∀ a, s.byteAt a = 0) ∧ (∀ px py, s.pixel px py = false) ∧
    s.fault = none ∧ s.run = false ∧ s.soundActive = false

/-- R160 (decision D1): `reset` acts at any time, faulted or not; every piece of state of the spec takes its
reset value. The model's own fields stand (log entries 2, 3, 4). -/
def Obligations.ResetActsAtAnyTime : Prop :=
  ∀ s : State, ∃ t, hostEvent .reset s = .next t ∧
    t.v = State.reset.v ∧ t.i = State.reset.i ∧ t.pc = State.reset.pc ∧ t.sp = State.reset.sp ∧
    t.dt = State.reset.dt ∧ t.st = State.reset.st ∧ t.keys = State.reset.keys ∧
    t.mem = State.reset.mem ∧ t.fb = State.reset.fb ∧ t.fault = State.reset.fault ∧
    t.run = State.reset.run ∧ t.shiftSrc = s.shiftSrc ∧ t.draws = s.draws ∧ t.host = s.host

/-- R144, R145, R149 (decision D15, log entry 1): whatever the rest of the state is after a fault, the latch
keeps the first fault, no event but `reset` changes anything, and `reset` clears the latch. -/
def Obligations.FaultedMachineWaitsForReset : Prop :=
  ∀ (s : State) (f : Fault),
    (s.fault = none → (s.latch f).fault = some f) ∧
    (∀ g, s.fault = some g → s.latch f = s) ∧
    (∀ e, e ≠ .reset → hostEvent e (s.latch f) = .next (s.latch f)) ∧
    (∃ t, hostEvent .reset (s.latch f) = .next t ∧ t.fault = none)

/-- R140, R142 (decisions D12, D16): the only faults of a step, each with its code and what it reports; code 3 is
never raised. -/
def Obligations.FaultsAreTheListedCauses : Prop :=
  ∀ (s : State) (f : Fault), step s = .fault f →
    match f with
    | .invalidOpcode ir =>
      f.code = 1 ∧ ir = s.fetched ∧ ∀ i, decodeWord ir = .ok i → i.executes = false
    | .memoryOutOfRange a => f.code = 2 ∧ 0xFFF < a
    | .registerIndexOutOfRange _ => False
    | .keyIndexOutOfRange k => f.code = 4 ∧ 15 < k.toNat
    | .loadOutOfRange n => f.code = 5 ∧ 4096 < n

/-- Every instruction and every event has a meaning: no step is refused. -/
def Obligations.NoStepIsRefused : Prop :=
  ∀ (s : State) (r : Refusal), step s ≠ .refused r

/-! ### The whole machine -/

/-- The invariant holds at reset, for either value of `SHIFT_SRC` (log entry 4): the values are those of R24; that
memory is in canonical form speaks of the model's own representation of memory (log entry 5), not of a rule. -/
def Obligations.InvariantHoldsAtReset : Prop := State.reset.Inv ∧ ∀ src, (State.resetFor src).Inv

/-- Every step keeps the invariant, whatever the host issues: memory stays within its 4096 bytes (R21, R30) and in
the canonical form that is the model's own (log entry 5), `SP` stays even (R38), and nothing but keys and loaded
bytes changes before the first `tick` (R25). That a next state has no fault latched is the model's reading of a
fault as a terminal outcome (log entry 1; the spec's R18 sets `FAULT` and R145 ends the run). The queue is log
entry 2. -/
def Obligations.EveryStepKeepsTheInvariant : Prop :=
  ∀ s t : State, s.Inv → step s = .next t → t.Inv

/-- R25, the ownership table (`FAULT` by the outcome of log entry 1). -/
def Obligations.StateIsChangedByItsOwnersOnly : Prop :=
  (∀ (e : HostEvent) (s t : State), e ≠ .reset → hostEvent e s = .next t →
    (e ≠ .tick → (∀ r, t.reg r = s.reg r) ∧ t.i = s.i ∧ t.pc = s.pc ∧ t.sp = s.sp ∧ t.run = s.run) ∧
    (t.dt ≠ s.dt → e = .tickTimers ∨ e = .tick ∧ ∃ x, Executes s (.ldDtVx x)) ∧
    (t.st ≠ s.st → e = .tickTimers ∨ e = .tick ∧ ∃ x, Executes s (.ldStVx x)) ∧
    (∀ k, t.key k ≠ s.key k → ∃ pressed, e = .pressKey k pressed) ∧
    (∀ a, t.byteAt a ≠ s.byteAt a →
      (s.run = false ∧ ∃ bytes offset, e = .load bytes offset) ∨
      (e = .tick ∧ ∃ i, Executes s i ∧
        ((∃ nnn, i = .call nnn) ∨ (∃ x, i = .ldB x) ∨ (∃ x, i = .storeRegs x)))) ∧
    (∀ px py, t.pixel px py ≠ s.pixel px py →
      e = .tick ∧ (Executes s .cls ∨ ∃ x y n, Executes s (.drw x y n))) ∧
    t.fault = s.fault) ∧
  (∀ (e : HostEvent) (s : State) (f : Fault), hostEvent e s = .fault f →
    e = .tick ∨ ∃ bytes offset, e = .load bytes offset)

/-- R11, R13, R14: only the named instructions change `I`, `SP` and, other than as their destination, VF. -/
def Obligations.NamedInstructionsWriteIAndSpAndVf : Prop :=
  ∀ (i : Instr) (s t : State), exec i s = .next t →
    (t.i ≠ s.i → (∃ nnn, i = .ldI nnn) ∨ (∃ x, i = .addI x) ∨ (∃ x, i = .ldF x)) ∧
    (t.sp ≠ s.sp → (∃ nnn, i = .call nnn) ∨ i = .ret) ∧
    (t.reg vF ≠ s.reg vF →
      (∃ x y, i = .orReg x y ∨ i = .andReg x y ∨ i = .xorReg x y ∨ i = .addReg x y ∨ i = .subReg x y ∨
        i = .shrReg x y ∨ i = .subnReg x y ∨ i = .shlReg x y) ∨
      (∃ x, i = .addI x) ∨ (∃ x y n, i = .drw x y n) ∨
      (∃ kk, i = .ldImm vF kk ∨ i = .addImm vF kk ∨ i = .rnd vF kk) ∨ (∃ y, i = .ldReg vF y) ∨
      i = .ldVxDt vF ∨ i = .ldVxK vF ∨ i = .loadRegs vF)

/-- R102: a `tick` that executes any instruction but `RND` ignores `rnd_in`. The statement speaks of the model's
own counter `draws`, which stands for `rnd_in` by log entry 3 (the model's choice): which bytes the host would
deliver next has no influence on the outcome. -/
def Obligations.OnlyRndReadsTheFreeByte : Prop :=
  ∀ (i : Instr) (s : State) (d : Nat), (∀ x kk, i ≠ .rnd x kk) →
    exec i { s with draws := d } = mapNext (fun t => { t with draws := d }) (exec i s)

/-- R165 (the spec derives it): once a program has ended at `a`, a `tick` of the running machine leaves the
state unchanged. -/
def Obligations.EndedProgramStandsStill : Prop :=
  ∀ (a : Nat) (s : State), EndedAt a s → s.run = true → tick s = .next s
end

