-- ==== Sys2Proof/Laws/State.lean ====
section
/-!
SUPPORT. What each update of the state changes and what it leaves: one lemma for each field and update, and
the read-after-write laws of the accessors. No later proof unfolds a record update.
-/

namespace Sys2Proof.Machine

/-! ### The literals of Config, as later proofs have them -/

@[simp] theorem nreg_eq : Config.nreg = 16 := rfl
@[simp] theorem xlen_eq : Config.xlen = 8 := rfl
@[simp] theorem alen_eq : Config.alen = 16 := rfl
@[simp] theorem ilen_eq : Config.ilen = 16 := rfl
@[simp] theorem nkey_eq : Config.nkey = 16 := rfl
@[simp] theorem fbWidth_eq : Config.fbWidth = 64 := rfl
@[simp] theorem fbHeight_eq : Config.fbHeight = 32 := rfl
@[simp] theorem fbCells_eq : Config.fbCells = 2048 := rfl
@[simp] theorem spriteWidth_eq : Config.spriteWidth = 8 := rfl
@[simp] theorem fontGlyphs_eq : Config.fontGlyphs = 16 := rfl
@[simp] theorem memSize_eq : Config.memSize = 4096 := rfl
@[simp] theorem iFlagLimit_eq : Config.iFlagLimit = 4096 := rfl
@[simp] theorem soundThreshold_eq : Config.soundThreshold = 2 := rfl
@[simp] theorem fontGlyphBytes_eq : Config.fontGlyphBytes = 5 := rfl
@[simp] theorem pcReset_eq : Config.pcReset = 0x200 := rfl
@[simp] theorem spReset_eq : Config.spReset = 0xFA0 := rfl
@[simp] theorem fontBase_eq : Config.fontBase = 0x000 := rfl
@[simp] theorem romBase_eq : Config.romBase = 0x200 := rfl
@[simp] theorem length_fontTable : Config.fontTable.length = 80 := rfl

/-! ### The reset state is the same for both values of `SHIFT_SRC` but for the parameter itself -/

theorem State.reset_eq : State.reset = State.resetFor .vx := rfl

variable (src : Config.ShiftSrc)

@[simp] theorem State.resetFor_v : (State.resetFor src).v = State.reset.v := rfl
@[simp] theorem State.resetFor_i : (State.resetFor src).i = 0 := rfl
@[simp] theorem State.resetFor_pc : (State.resetFor src).pc = 0x200 := rfl
@[simp] theorem State.resetFor_sp : (State.resetFor src).sp = 0xFA0 := rfl
@[simp] theorem State.resetFor_dt : (State.resetFor src).dt = 0 := rfl
@[simp] theorem State.resetFor_st : (State.resetFor src).st = 0 := rfl
@[simp] theorem State.resetFor_keys : (State.resetFor src).keys = State.reset.keys := rfl
@[simp] theorem State.resetFor_mem : (State.resetFor src).mem = [] := rfl
@[simp] theorem State.resetFor_fb : (State.resetFor src).fb = Framebuffer.clear := rfl
@[simp] theorem State.resetFor_fault : (State.resetFor src).fault = none := rfl
@[simp] theorem State.resetFor_run : (State.resetFor src).run = false := rfl
@[simp] theorem State.resetFor_shiftSrc : (State.resetFor src).shiftSrc = src := rfl
@[simp] theorem State.resetFor_draws : (State.resetFor src).draws = 0 := rfl
@[simp] theorem State.resetFor_host : (State.resetFor src).host = [] := rfl

variable (s : State)

/-! ### The cause codes (60_exceptions.md R140) -/

@[simp] theorem Fault.code_invalidOpcode (ir : Word) : (Fault.invalidOpcode ir).code = 1 := rfl
@[simp] theorem Fault.code_memoryOutOfRange (a : Nat) : (Fault.memoryOutOfRange a).code = 2 := rfl
@[simp] theorem Fault.code_registerIndexOutOfRange (k : Nat) : (Fault.registerIndexOutOfRange k).code = 3 := rfl
@[simp] theorem Fault.code_keyIndexOutOfRange (k : Byte) : (Fault.keyIndexOutOfRange k).code = 4 := rfl
@[simp] theorem Fault.code_loadOutOfRange (n : Nat) : (Fault.loadOutOfRange n).code = 5 := rfl

/-! ### `V[x] <- b` -/

@[simp] theorem State.setReg_i (x : Reg) (b : Byte) : (s.setReg x b).i = s.i := rfl
@[simp] theorem State.setReg_pc (x : Reg) (b : Byte) : (s.setReg x b).pc = s.pc := rfl
@[simp] theorem State.setReg_sp (x : Reg) (b : Byte) : (s.setReg x b).sp = s.sp := rfl
@[simp] theorem State.setReg_dt (x : Reg) (b : Byte) : (s.setReg x b).dt = s.dt := rfl
@[simp] theorem State.setReg_st (x : Reg) (b : Byte) : (s.setReg x b).st = s.st := rfl
@[simp] theorem State.setReg_keys (x : Reg) (b : Byte) : (s.setReg x b).keys = s.keys := rfl
@[simp] theorem State.setReg_mem (x : Reg) (b : Byte) : (s.setReg x b).mem = s.mem := rfl
@[simp] theorem State.setReg_fb (x : Reg) (b : Byte) : (s.setReg x b).fb = s.fb := rfl
@[simp] theorem State.setReg_fault (x : Reg) (b : Byte) : (s.setReg x b).fault = s.fault := rfl
@[simp] theorem State.setReg_run (x : Reg) (b : Byte) : (s.setReg x b).run = s.run := rfl
@[simp] theorem State.setReg_shiftSrc (x : Reg) (b : Byte) : (s.setReg x b).shiftSrc = s.shiftSrc := rfl
@[simp] theorem State.setReg_draws (x : Reg) (b : Byte) : (s.setReg x b).draws = s.draws := rfl
@[simp] theorem State.setReg_host (x : Reg) (b : Byte) : (s.setReg x b).host = s.host := rfl

/-! ### `I <- w` -/

@[simp] theorem State.setI_v (w : Word) : (s.setI w).v = s.v := rfl
@[simp] theorem State.setI_i (w : Word) : (s.setI w).i = w := rfl
@[simp] theorem State.setI_pc (w : Word) : (s.setI w).pc = s.pc := rfl
@[simp] theorem State.setI_sp (w : Word) : (s.setI w).sp = s.sp := rfl
@[simp] theorem State.setI_dt (w : Word) : (s.setI w).dt = s.dt := rfl
@[simp] theorem State.setI_st (w : Word) : (s.setI w).st = s.st := rfl
@[simp] theorem State.setI_keys (w : Word) : (s.setI w).keys = s.keys := rfl
@[simp] theorem State.setI_mem (w : Word) : (s.setI w).mem = s.mem := rfl
@[simp] theorem State.setI_fb (w : Word) : (s.setI w).fb = s.fb := rfl
@[simp] theorem State.setI_fault (w : Word) : (s.setI w).fault = s.fault := rfl
@[simp] theorem State.setI_run (w : Word) : (s.setI w).run = s.run := rfl
@[simp] theorem State.setI_shiftSrc (w : Word) : (s.setI w).shiftSrc = s.shiftSrc := rfl
@[simp] theorem State.setI_draws (w : Word) : (s.setI w).draws = s.draws := rfl
@[simp] theorem State.setI_host (w : Word) : (s.setI w).host = s.host := rfl

/-! ### `PC <- w` -/

@[simp] theorem State.setPc_v (w : Word) : (s.setPc w).v = s.v := rfl
@[simp] theorem State.setPc_i (w : Word) : (s.setPc w).i = s.i := rfl
@[simp] theorem State.setPc_pc (w : Word) : (s.setPc w).pc = w := rfl
@[simp] theorem State.setPc_sp (w : Word) : (s.setPc w).sp = s.sp := rfl
@[simp] theorem State.setPc_dt (w : Word) : (s.setPc w).dt = s.dt := rfl
@[simp] theorem State.setPc_st (w : Word) : (s.setPc w).st = s.st := rfl
@[simp] theorem State.setPc_keys (w : Word) : (s.setPc w).keys = s.keys := rfl
@[simp] theorem State.setPc_mem (w : Word) : (s.setPc w).mem = s.mem := rfl
@[simp] theorem State.setPc_fb (w : Word) : (s.setPc w).fb = s.fb := rfl
@[simp] theorem State.setPc_fault (w : Word) : (s.setPc w).fault = s.fault := rfl
@[simp] theorem State.setPc_run (w : Word) : (s.setPc w).run = s.run := rfl
@[simp] theorem State.setPc_shiftSrc (w : Word) : (s.setPc w).shiftSrc = s.shiftSrc := rfl
@[simp] theorem State.setPc_draws (w : Word) : (s.setPc w).draws = s.draws := rfl
@[simp] theorem State.setPc_host (w : Word) : (s.setPc w).host = s.host := rfl

/-! ### `SP <- w` -/

@[simp] theorem State.setSp_v (w : Word) : (s.setSp w).v = s.v := rfl
@[simp] theorem State.setSp_i (w : Word) : (s.setSp w).i = s.i := rfl
@[simp] theorem State.setSp_pc (w : Word) : (s.setSp w).pc = s.pc := rfl
@[simp] theorem State.setSp_sp (w : Word) : (s.setSp w).sp = w := rfl
@[simp] theorem State.setSp_dt (w : Word) : (s.setSp w).dt = s.dt := rfl
@[simp] theorem State.setSp_st (w : Word) : (s.setSp w).st = s.st := rfl
@[simp] theorem State.setSp_keys (w : Word) : (s.setSp w).keys = s.keys := rfl
@[simp] theorem State.setSp_mem (w : Word) : (s.setSp w).mem = s.mem := rfl
@[simp] theorem State.setSp_fb (w : Word) : (s.setSp w).fb = s.fb := rfl
@[simp] theorem State.setSp_fault (w : Word) : (s.setSp w).fault = s.fault := rfl
@[simp] theorem State.setSp_run (w : Word) : (s.setSp w).run = s.run := rfl
@[simp] theorem State.setSp_shiftSrc (w : Word) : (s.setSp w).shiftSrc = s.shiftSrc := rfl
@[simp] theorem State.setSp_draws (w : Word) : (s.setSp w).draws = s.draws := rfl
@[simp] theorem State.setSp_host (w : Word) : (s.setSp w).host = s.host := rfl

/-! ### `DT <- b` -/

@[simp] theorem State.setDt_v (b : Byte) : (s.setDt b).v = s.v := rfl
@[simp] theorem State.setDt_i (b : Byte) : (s.setDt b).i = s.i := rfl
@[simp] theorem State.setDt_pc (b : Byte) : (s.setDt b).pc = s.pc := rfl
@[simp] theorem State.setDt_sp (b : Byte) : (s.setDt b).sp = s.sp := rfl
@[simp] theorem State.setDt_dt (b : Byte) : (s.setDt b).dt = b := rfl
@[simp] theorem State.setDt_st (b : Byte) : (s.setDt b).st = s.st := rfl
@[simp] theorem State.setDt_keys (b : Byte) : (s.setDt b).keys = s.keys := rfl
@[simp] theorem State.setDt_mem (b : Byte) : (s.setDt b).mem = s.mem := rfl
@[simp] theorem State.setDt_fb (b : Byte) : (s.setDt b).fb = s.fb := rfl
@[simp] theorem State.setDt_fault (b : Byte) : (s.setDt b).fault = s.fault := rfl
@[simp] theorem State.setDt_run (b : Byte) : (s.setDt b).run = s.run := rfl
@[simp] theorem State.setDt_shiftSrc (b : Byte) : (s.setDt b).shiftSrc = s.shiftSrc := rfl
@[simp] theorem State.setDt_draws (b : Byte) : (s.setDt b).draws = s.draws := rfl
@[simp] theorem State.setDt_host (b : Byte) : (s.setDt b).host = s.host := rfl

/-! ### `ST <- b` -/

@[simp] theorem State.setSt_v (b : Byte) : (s.setSt b).v = s.v := rfl
@[simp] theorem State.setSt_i (b : Byte) : (s.setSt b).i = s.i := rfl
@[simp] theorem State.setSt_pc (b : Byte) : (s.setSt b).pc = s.pc := rfl
@[simp] theorem State.setSt_sp (b : Byte) : (s.setSt b).sp = s.sp := rfl
@[simp] theorem State.setSt_dt (b : Byte) : (s.setSt b).dt = s.dt := rfl
@[simp] theorem State.setSt_st (b : Byte) : (s.setSt b).st = b := rfl
@[simp] theorem State.setSt_keys (b : Byte) : (s.setSt b).keys = s.keys := rfl
@[simp] theorem State.setSt_mem (b : Byte) : (s.setSt b).mem = s.mem := rfl
@[simp] theorem State.setSt_fb (b : Byte) : (s.setSt b).fb = s.fb := rfl
@[simp] theorem State.setSt_fault (b : Byte) : (s.setSt b).fault = s.fault := rfl
@[simp] theorem State.setSt_run (b : Byte) : (s.setSt b).run = s.run := rfl
@[simp] theorem State.setSt_shiftSrc (b : Byte) : (s.setSt b).shiftSrc = s.shiftSrc := rfl
@[simp] theorem State.setSt_draws (b : Byte) : (s.setSt b).draws = s.draws := rfl
@[simp] theorem State.setSt_host (b : Byte) : (s.setSt b).host = s.host := rfl

/-! ### `K[k] <- b` -/

@[simp] theorem State.setKey_v (k : Key) (b : Bool) : (s.setKey k b).v = s.v := rfl
@[simp] theorem State.setKey_i (k : Key) (b : Bool) : (s.setKey k b).i = s.i := rfl
@[simp] theorem State.setKey_pc (k : Key) (b : Bool) : (s.setKey k b).pc = s.pc := rfl
@[simp] theorem State.setKey_sp (k : Key) (b : Bool) : (s.setKey k b).sp = s.sp := rfl
@[simp] theorem State.setKey_dt (k : Key) (b : Bool) : (s.setKey k b).dt = s.dt := rfl
@[simp] theorem State.setKey_st (k : Key) (b : Bool) : (s.setKey k b).st = s.st := rfl
@[simp] theorem State.setKey_mem (k : Key) (b : Bool) : (s.setKey k b).mem = s.mem := rfl
@[simp] theorem State.setKey_fb (k : Key) (b : Bool) : (s.setKey k b).fb = s.fb := rfl
@[simp] theorem State.setKey_fault (k : Key) (b : Bool) : (s.setKey k b).fault = s.fault := rfl
@[simp] theorem State.setKey_run (k : Key) (b : Bool) : (s.setKey k b).run = s.run := rfl
@[simp] theorem State.setKey_shiftSrc (k : Key) (b : Bool) : (s.setKey k b).shiftSrc = s.shiftSrc := rfl
@[simp] theorem State.setKey_draws (k : Key) (b : Bool) : (s.setKey k b).draws = s.draws := rfl
@[simp] theorem State.setKey_host (k : Key) (b : Bool) : (s.setKey k b).host = s.host := rfl

/-! ### `MEM` -/

@[simp] theorem State.setMem_v (m : Memory) : (s.setMem m).v = s.v := rfl
@[simp] theorem State.setMem_i (m : Memory) : (s.setMem m).i = s.i := rfl
@[simp] theorem State.setMem_pc (m : Memory) : (s.setMem m).pc = s.pc := rfl
@[simp] theorem State.setMem_sp (m : Memory) : (s.setMem m).sp = s.sp := rfl
@[simp] theorem State.setMem_dt (m : Memory) : (s.setMem m).dt = s.dt := rfl
@[simp] theorem State.setMem_st (m : Memory) : (s.setMem m).st = s.st := rfl
@[simp] theorem State.setMem_keys (m : Memory) : (s.setMem m).keys = s.keys := rfl
@[simp] theorem State.setMem_mem (m : Memory) : (s.setMem m).mem = m := rfl
@[simp] theorem State.setMem_fb (m : Memory) : (s.setMem m).fb = s.fb := rfl
@[simp] theorem State.setMem_fault (m : Memory) : (s.setMem m).fault = s.fault := rfl
@[simp] theorem State.setMem_run (m : Memory) : (s.setMem m).run = s.run := rfl
@[simp] theorem State.setMem_shiftSrc (m : Memory) : (s.setMem m).shiftSrc = s.shiftSrc := rfl
@[simp] theorem State.setMem_draws (m : Memory) : (s.setMem m).draws = s.draws := rfl
@[simp] theorem State.setMem_host (m : Memory) : (s.setMem m).host = s.host := rfl

/-! ### `FB` -/

@[simp] theorem State.setFb_v (f : Framebuffer) : (s.setFb f).v = s.v := rfl
@[simp] theorem State.setFb_i (f : Framebuffer) : (s.setFb f).i = s.i := rfl
@[simp] theorem State.setFb_pc (f : Framebuffer) : (s.setFb f).pc = s.pc := rfl
@[simp] theorem State.setFb_sp (f : Framebuffer) : (s.setFb f).sp = s.sp := rfl
@[simp] theorem State.setFb_dt (f : Framebuffer) : (s.setFb f).dt = s.dt := rfl
@[simp] theorem State.setFb_st (f : Framebuffer) : (s.setFb f).st = s.st := rfl
@[simp] theorem State.setFb_keys (f : Framebuffer) : (s.setFb f).keys = s.keys := rfl
@[simp] theorem State.setFb_mem (f : Framebuffer) : (s.setFb f).mem = s.mem := rfl
@[simp] theorem State.setFb_fb (f : Framebuffer) : (s.setFb f).fb = f := rfl
@[simp] theorem State.setFb_fault (f : Framebuffer) : (s.setFb f).fault = s.fault := rfl
@[simp] theorem State.setFb_run (f : Framebuffer) : (s.setFb f).run = s.run := rfl
@[simp] theorem State.setFb_shiftSrc (f : Framebuffer) : (s.setFb f).shiftSrc = s.shiftSrc := rfl
@[simp] theorem State.setFb_draws (f : Framebuffer) : (s.setFb f).draws = s.draws := rfl
@[simp] theorem State.setFb_host (f : Framebuffer) : (s.setFb f).host = s.host := rfl

/-! ### `RUN <- true` -/

@[simp] theorem State.start_v : (s.start).v = s.v := rfl
@[simp] theorem State.start_i : (s.start).i = s.i := rfl
@[simp] theorem State.start_pc : (s.start).pc = s.pc := rfl
@[simp] theorem State.start_sp : (s.start).sp = s.sp := rfl
@[simp] theorem State.start_dt : (s.start).dt = s.dt := rfl
@[simp] theorem State.start_st : (s.start).st = s.st := rfl
@[simp] theorem State.start_keys : (s.start).keys = s.keys := rfl
@[simp] theorem State.start_mem : (s.start).mem = s.mem := rfl
@[simp] theorem State.start_fb : (s.start).fb = s.fb := rfl
@[simp] theorem State.start_fault : (s.start).fault = s.fault := rfl
@[simp] theorem State.start_run : (s.start).run = true := rfl
@[simp] theorem State.start_shiftSrc : (s.start).shiftSrc = s.shiftSrc := rfl
@[simp] theorem State.start_draws : (s.start).draws = s.draws := rfl
@[simp] theorem State.start_host : (s.start).host = s.host := rfl

/-! ### a used `rnd_in` -/

@[simp] theorem State.drawn_v : (s.drawn).v = s.v := rfl
@[simp] theorem State.drawn_i : (s.drawn).i = s.i := rfl
@[simp] theorem State.drawn_pc : (s.drawn).pc = s.pc := rfl
@[simp] theorem State.drawn_sp : (s.drawn).sp = s.sp := rfl
@[simp] theorem State.drawn_dt : (s.drawn).dt = s.dt := rfl
@[simp] theorem State.drawn_st : (s.drawn).st = s.st := rfl
@[simp] theorem State.drawn_keys : (s.drawn).keys = s.keys := rfl
@[simp] theorem State.drawn_mem : (s.drawn).mem = s.mem := rfl
@[simp] theorem State.drawn_fb : (s.drawn).fb = s.fb := rfl
@[simp] theorem State.drawn_fault : (s.drawn).fault = s.fault := rfl
@[simp] theorem State.drawn_run : (s.drawn).run = s.run := rfl
@[simp] theorem State.drawn_shiftSrc : (s.drawn).shiftSrc = s.shiftSrc := rfl
@[simp] theorem State.drawn_draws : (s.drawn).draws = s.draws + 1 := rfl
@[simp] theorem State.drawn_host : (s.drawn).host = s.host := rfl

/-! ### the host's queue -/

@[simp] theorem State.setHost_v (l : List HostEvent) : (s.setHost l).v = s.v := rfl
@[simp] theorem State.setHost_i (l : List HostEvent) : (s.setHost l).i = s.i := rfl
@[simp] theorem State.setHost_pc (l : List HostEvent) : (s.setHost l).pc = s.pc := rfl
@[simp] theorem State.setHost_sp (l : List HostEvent) : (s.setHost l).sp = s.sp := rfl
@[simp] theorem State.setHost_dt (l : List HostEvent) : (s.setHost l).dt = s.dt := rfl
@[simp] theorem State.setHost_st (l : List HostEvent) : (s.setHost l).st = s.st := rfl
@[simp] theorem State.setHost_keys (l : List HostEvent) : (s.setHost l).keys = s.keys := rfl
@[simp] theorem State.setHost_mem (l : List HostEvent) : (s.setHost l).mem = s.mem := rfl
@[simp] theorem State.setHost_fb (l : List HostEvent) : (s.setHost l).fb = s.fb := rfl
@[simp] theorem State.setHost_fault (l : List HostEvent) : (s.setHost l).fault = s.fault := rfl
@[simp] theorem State.setHost_run (l : List HostEvent) : (s.setHost l).run = s.run := rfl
@[simp] theorem State.setHost_shiftSrc (l : List HostEvent) : (s.setHost l).shiftSrc = s.shiftSrc := rfl
@[simp] theorem State.setHost_draws (l : List HostEvent) : (s.setHost l).draws = s.draws := rfl
@[simp] theorem State.setHost_host (l : List HostEvent) : (s.setHost l).host = l := rfl

/-! ### `VF <- b ? 1 : 0` -/

@[simp] theorem State.setFlag_i (b : Bool) : (s.setFlag b).i = s.i := rfl
@[simp] theorem State.setFlag_pc (b : Bool) : (s.setFlag b).pc = s.pc := rfl
@[simp] theorem State.setFlag_sp (b : Bool) : (s.setFlag b).sp = s.sp := rfl
@[simp] theorem State.setFlag_dt (b : Bool) : (s.setFlag b).dt = s.dt := rfl
@[simp] theorem State.setFlag_st (b : Bool) : (s.setFlag b).st = s.st := rfl
@[simp] theorem State.setFlag_keys (b : Bool) : (s.setFlag b).keys = s.keys := rfl
@[simp] theorem State.setFlag_mem (b : Bool) : (s.setFlag b).mem = s.mem := rfl
@[simp] theorem State.setFlag_fb (b : Bool) : (s.setFlag b).fb = s.fb := rfl
@[simp] theorem State.setFlag_fault (b : Bool) : (s.setFlag b).fault = s.fault := rfl
@[simp] theorem State.setFlag_run (b : Bool) : (s.setFlag b).run = s.run := rfl
@[simp] theorem State.setFlag_shiftSrc (b : Bool) : (s.setFlag b).shiftSrc = s.shiftSrc := rfl
@[simp] theorem State.setFlag_draws (b : Bool) : (s.setFlag b).draws = s.draws := rfl
@[simp] theorem State.setFlag_host (b : Bool) : (s.setFlag b).host = s.host := rfl

/-! ### a result, then the flag -/

@[simp] theorem State.setResult_i (x : Reg) (r : Byte) (flag : Bool) : (s.setResult x r flag).i = s.i := rfl
@[simp] theorem State.setResult_pc (x : Reg) (r : Byte) (flag : Bool) : (s.setResult x r flag).pc = s.pc := rfl
@[simp] theorem State.setResult_sp (x : Reg) (r : Byte) (flag : Bool) : (s.setResult x r flag).sp = s.sp := rfl
@[simp] theorem State.setResult_dt (x : Reg) (r : Byte) (flag : Bool) : (s.setResult x r flag).dt = s.dt := rfl
@[simp] theorem State.setResult_st (x : Reg) (r : Byte) (flag : Bool) : (s.setResult x r flag).st = s.st := rfl
@[simp] theorem State.setResult_keys (x : Reg) (r : Byte) (flag : Bool) : (s.setResult x r flag).keys = s.keys := rfl
@[simp] theorem State.setResult_mem (x : Reg) (r : Byte) (flag : Bool) : (s.setResult x r flag).mem = s.mem := rfl
@[simp] theorem State.setResult_fb (x : Reg) (r : Byte) (flag : Bool) : (s.setResult x r flag).fb = s.fb := rfl
@[simp] theorem State.setResult_fault (x : Reg) (r : Byte) (flag : Bool) : (s.setResult x r flag).fault = s.fault := rfl
@[simp] theorem State.setResult_run (x : Reg) (r : Byte) (flag : Bool) : (s.setResult x r flag).run = s.run := rfl
@[simp] theorem State.setResult_shiftSrc (x : Reg) (r : Byte) (flag : Bool) : (s.setResult x r flag).shiftSrc = s.shiftSrc := rfl
@[simp] theorem State.setResult_draws (x : Reg) (r : Byte) (flag : Bool) : (s.setResult x r flag).draws = s.draws := rfl
@[simp] theorem State.setResult_host (x : Reg) (r : Byte) (flag : Bool) : (s.setResult x r flag).host = s.host := rfl

/-! ### Registers, keys, bytes and pixels under the updates -/

theorem State.ext_regs {s t : State} (h : ∀ r : Reg, t.reg r = s.reg r) : t.v = s.v := by
  apply Vector.ext
  intro k hk
  exact h ⟨k, hk⟩

theorem State.ext_keys {s t : State} (h : ∀ k : Key, t.key k = s.key k) : t.keys = s.keys := by
  apply Vector.ext
  intro k hk
  exact h ⟨k, hk⟩

@[simp] theorem State.reg_setReg (x : Reg) (b : Byte) (y : Reg) :
    (s.setReg x b).reg y = if y = x then b else s.reg y := by
  simp only [State.reg, State.setReg, Vector.getElem_set, Fin.ext_iff, eq_comm]

@[simp] theorem State.reg_setFlag (b : Bool) (y : Reg) :
    (s.setFlag b).reg y = if y = vF then flagByte b else s.reg y := State.reg_setReg s vF (flagByte b) y

/-- Where a result and a flag go: VF takes the flag, also when it is the result's register (R101). -/
@[simp] theorem State.reg_setResult (x : Reg) (r : Byte) (flag : Bool) (y : Reg) :
    (s.setResult x r flag).reg y = if y = vF then flagByte flag else if y = x then r else s.reg y := by
  simp [State.setResult]

@[simp] theorem State.key_setKey (k : Key) (b : Bool) (j : Key) :
    (s.setKey k b).key j = if j = k then b else s.key j := by
  simp only [State.key, State.setKey, Vector.getElem_set, Fin.ext_iff, eq_comm]

@[simp] theorem State.reg_setI (w : Word) (r : Reg) : (s.setI w).reg r = s.reg r := rfl
@[simp] theorem State.reg_setPc (w : Word) (r : Reg) : (s.setPc w).reg r = s.reg r := rfl
@[simp] theorem State.reg_setSp (w : Word) (r : Reg) : (s.setSp w).reg r = s.reg r := rfl
@[simp] theorem State.reg_setDt (b : Byte) (r : Reg) : (s.setDt b).reg r = s.reg r := rfl
@[simp] theorem State.reg_setSt (b : Byte) (r : Reg) : (s.setSt b).reg r = s.reg r := rfl
@[simp] theorem State.reg_setKey (k : Key) (b : Bool) (r : Reg) : (s.setKey k b).reg r = s.reg r := rfl
@[simp] theorem State.reg_setMem (m : Memory) (r : Reg) : (s.setMem m).reg r = s.reg r := rfl
@[simp] theorem State.reg_setFb (f : Framebuffer) (r : Reg) : (s.setFb f).reg r = s.reg r := rfl
@[simp] theorem State.reg_start (r : Reg) : (s.start).reg r = s.reg r := rfl
@[simp] theorem State.reg_drawn (r : Reg) : (s.drawn).reg r = s.reg r := rfl
@[simp] theorem State.reg_setHost (l : List HostEvent) (r : Reg) : (s.setHost l).reg r = s.reg r := rfl
@[simp] theorem State.key_setReg (x : Reg) (b : Byte) (j : Key) : (s.setReg x b).key j = s.key j := rfl
@[simp] theorem State.key_setI (w : Word) (j : Key) : (s.setI w).key j = s.key j := rfl
@[simp] theorem State.key_setPc (w : Word) (j : Key) : (s.setPc w).key j = s.key j := rfl
@[simp] theorem State.key_setSp (w : Word) (j : Key) : (s.setSp w).key j = s.key j := rfl
@[simp] theorem State.key_setDt (b : Byte) (j : Key) : (s.setDt b).key j = s.key j := rfl
@[simp] theorem State.key_setSt (b : Byte) (j : Key) : (s.setSt b).key j = s.key j := rfl
@[simp] theorem State.key_setMem (m : Memory) (j : Key) : (s.setMem m).key j = s.key j := rfl
@[simp] theorem State.key_setFb (f : Framebuffer) (j : Key) : (s.setFb f).key j = s.key j := rfl
@[simp] theorem State.key_start (j : Key) : (s.start).key j = s.key j := rfl
@[simp] theorem State.key_drawn (j : Key) : (s.drawn).key j = s.key j := rfl
@[simp] theorem State.key_setHost (l : List HostEvent) (j : Key) : (s.setHost l).key j = s.key j := rfl
@[simp] theorem State.key_setFlag (b : Bool) (j : Key) : (s.setFlag b).key j = s.key j := rfl
@[simp] theorem State.key_setResult (x : Reg) (r : Byte) (flag : Bool) (j : Key) : (s.setResult x r flag).key j = s.key j := rfl
@[simp] theorem State.byteAt_setReg (x : Reg) (b : Byte) (a : Nat) : (s.setReg x b).byteAt a = s.byteAt a := rfl
@[simp] theorem State.byteAt_setI (w : Word) (a : Nat) : (s.setI w).byteAt a = s.byteAt a := rfl
@[simp] theorem State.byteAt_setPc (w : Word) (a : Nat) : (s.setPc w).byteAt a = s.byteAt a := rfl
@[simp] theorem State.byteAt_setSp (w : Word) (a : Nat) : (s.setSp w).byteAt a = s.byteAt a := rfl
@[simp] theorem State.byteAt_setDt (b : Byte) (a : Nat) : (s.setDt b).byteAt a = s.byteAt a := rfl
@[simp] theorem State.byteAt_setSt (b : Byte) (a : Nat) : (s.setSt b).byteAt a = s.byteAt a := rfl
@[simp] theorem State.byteAt_setKey (k : Key) (b : Bool) (a : Nat) : (s.setKey k b).byteAt a = s.byteAt a := rfl
@[simp] theorem State.byteAt_setFb (f : Framebuffer) (a : Nat) : (s.setFb f).byteAt a = s.byteAt a := rfl
@[simp] theorem State.byteAt_start (a : Nat) : (s.start).byteAt a = s.byteAt a := rfl
@[simp] theorem State.byteAt_drawn (a : Nat) : (s.drawn).byteAt a = s.byteAt a := rfl
@[simp] theorem State.byteAt_setHost (l : List HostEvent) (a : Nat) : (s.setHost l).byteAt a = s.byteAt a := rfl
@[simp] theorem State.byteAt_setFlag (b : Bool) (a : Nat) : (s.setFlag b).byteAt a = s.byteAt a := rfl
@[simp] theorem State.byteAt_setResult (x : Reg) (r : Byte) (flag : Bool) (a : Nat) : (s.setResult x r flag).byteAt a = s.byteAt a := rfl
@[simp] theorem State.pixel_setReg (x : Reg) (b : Byte) (px : Fin 64) (py : Fin 32) : (s.setReg x b).pixel px py = s.pixel px py := rfl
@[simp] theorem State.pixel_setI (w : Word) (px : Fin 64) (py : Fin 32) : (s.setI w).pixel px py = s.pixel px py := rfl
@[simp] theorem State.pixel_setPc (w : Word) (px : Fin 64) (py : Fin 32) : (s.setPc w).pixel px py = s.pixel px py := rfl
@[simp] theorem State.pixel_setSp (w : Word) (px : Fin 64) (py : Fin 32) : (s.setSp w).pixel px py = s.pixel px py := rfl
@[simp] theorem State.pixel_setDt (b : Byte) (px : Fin 64) (py : Fin 32) : (s.setDt b).pixel px py = s.pixel px py := rfl
@[simp] theorem State.pixel_setSt (b : Byte) (px : Fin 64) (py : Fin 32) : (s.setSt b).pixel px py = s.pixel px py := rfl
@[simp] theorem State.pixel_setKey (k : Key) (b : Bool) (px : Fin 64) (py : Fin 32) : (s.setKey k b).pixel px py = s.pixel px py := rfl
@[simp] theorem State.pixel_setMem (m : Memory) (px : Fin 64) (py : Fin 32) : (s.setMem m).pixel px py = s.pixel px py := rfl
@[simp] theorem State.pixel_start (px : Fin 64) (py : Fin 32) : (s.start).pixel px py = s.pixel px py := rfl
@[simp] theorem State.pixel_drawn (px : Fin 64) (py : Fin 32) : (s.drawn).pixel px py = s.pixel px py := rfl
@[simp] theorem State.pixel_setHost (l : List HostEvent) (px : Fin 64) (py : Fin 32) : (s.setHost l).pixel px py = s.pixel px py := rfl
@[simp] theorem State.pixel_setFlag (b : Bool) (px : Fin 64) (py : Fin 32) : (s.setFlag b).pixel px py = s.pixel px py := rfl
@[simp] theorem State.pixel_setResult (x : Reg) (r : Byte) (flag : Bool) (px : Fin 64) (py : Fin 32) : (s.setResult x r flag).pixel px py = s.pixel px py := rfl

theorem State.byteAt_setMem (m : Memory) (a : Nat) : (s.setMem m).byteAt a = m.read a := rfl

theorem State.pixel_setFb (f : Framebuffer) (px : Fin 64) (py : Fin 32) :
    (s.setFb f).pixel px py = f.cell px py := rfl

end Sys2Proof.Machine
end

