-- ==== Sys2Proof/Laws/Decode.lean ====
section
/-!
SUPPORT. The laws of the decoder and encoder: each field as arithmetic on the word, the fields of an encoded
word, and the decoder's answer for each value of the first nibble (30_encoding.md R51 to R54).
-/

namespace Sys2Proof

/-! ### Fields and encoders as arithmetic -/

theorem toNat_append_eq {m n : Nat} (a : BitVec m) (b : BitVec n) :
    (a ++ b).toNat = a.toNat * 2 ^ n + b.toNat := by
  rw [BitVec.toNat_append, ← Nat.shiftLeft_add_eq_or_of_lt b.isLt, Nat.shiftLeft_eq]

theorem wordOfBytes_toNat (hi lo : Byte) : (wordOfBytes hi lo).toNat = hi.toNat * 256 + lo.toNat :=
  toNat_append_eq hi lo

theorem fieldOp_toNat (w : Word) : (fieldOp w).toNat = w.toNat / 4096 := by
  have := w.isLt
  simp only [fieldOp, BitVec.extractLsb'_toNat, Nat.shiftRight_eq_div_pow]
  omega

theorem fieldNnn_toNat (w : Word) : (fieldNnn w).toNat = w.toNat % 4096 := by
  simp [fieldNnn, BitVec.extractLsb'_toNat]

theorem fieldKk_toNat (w : Word) : (fieldKk w).toNat = w.toNat % 256 := by
  simp [fieldKk, BitVec.extractLsb'_toNat]

theorem fieldX_val (w : Word) : (fieldX w).val = w.toNat / 256 % 16 := by
  show BitVec.toNat _ = _
  simp [BitVec.extractLsb'_toNat, Nat.shiftRight_eq_div_pow]

theorem fieldY_val (w : Word) : (fieldY w).val = w.toNat / 16 % 16 := by
  show BitVec.toNat _ = _
  simp [BitVec.extractLsb'_toNat, Nat.shiftRight_eq_div_pow]

theorem fieldN_val (w : Word) : (fieldN w).val = w.toNat % 16 := by
  show BitVec.toNat _ = _
  simp [BitVec.extractLsb'_toNat]

theorem encodeA_toNat (op : BitVec 4) (nnn : Addr12) :
    (encodeA op nnn).toNat = op.toNat * 4096 + nnn.toNat := toNat_append_eq op nnn

theorem encodeXK_toNat (op : BitVec 4) (x : Reg) (kk : Byte) :
    (encodeXK op x kk).toNat = op.toNat * 4096 + x.val * 256 + kk.toNat := by
  refine (toNat_append_eq (op ++ BitVec.ofFin (w := 4) x) kk).trans ?_
  rw [toNat_append_eq]
  show (op.toNat * 2 ^ 4 + x.val) * 2 ^ 8 + kk.toNat = _
  ring

theorem encodeXY_toNat (op : BitVec 4) (x y : Reg) (n : Fin 16) :
    (encodeXY op x y n).toNat = op.toNat * 4096 + x.val * 256 + y.val * 16 + n.val := by
  refine (toNat_append_eq (op ++ BitVec.ofFin (w := 4) x ++ BitVec.ofFin (w := 4) y)
    (BitVec.ofFin (w := 4) n)).trans ?_
  rw [toNat_append_eq, toNat_append_eq]
  show ((op.toNat * 2 ^ 4 + x.val) * 2 ^ 4 + y.val) * 2 ^ 4 + n.val = _
  ring

/-! ### The fields of an encoded word -/

section
variable (op : BitVec 4) (nnn : Addr12) (x y : Reg) (kk : Byte) (n : Fin 16)

@[simp] theorem fieldOp_encodeA : fieldOp (encodeA op nnn) = op :=
  BitVec.eq_of_toNat_eq (by rw [fieldOp_toNat, encodeA_toNat]; omega)

@[simp] theorem fieldNnn_encodeA : fieldNnn (encodeA op nnn) = nnn :=
  BitVec.eq_of_toNat_eq (by rw [fieldNnn_toNat, encodeA_toNat]; omega)

@[simp] theorem fieldOp_encodeXK : fieldOp (encodeXK op x kk) = op :=
  BitVec.eq_of_toNat_eq (by rw [fieldOp_toNat, encodeXK_toNat]; omega)

@[simp] theorem fieldX_encodeXK : fieldX (encodeXK op x kk) = x :=
  Fin.ext (by rw [fieldX_val, encodeXK_toNat]; omega)

@[simp] theorem fieldKk_encodeXK : fieldKk (encodeXK op x kk) = kk :=
  BitVec.eq_of_toNat_eq (by rw [fieldKk_toNat, encodeXK_toNat]; omega)

@[simp] theorem fieldOp_encodeXY : fieldOp (encodeXY op x y n) = op :=
  BitVec.eq_of_toNat_eq (by rw [fieldOp_toNat, encodeXY_toNat]; omega)

@[simp] theorem fieldX_encodeXY : fieldX (encodeXY op x y n) = x :=
  Fin.ext (by rw [fieldX_val, encodeXY_toNat]; omega)

@[simp] theorem fieldY_encodeXY : fieldY (encodeXY op x y n) = y :=
  Fin.ext (by rw [fieldY_val, encodeXY_toNat]; omega)

@[simp] theorem fieldN_encodeXY : fieldN (encodeXY op x y n) = n :=
  Fin.ext (by rw [fieldN_val, encodeXY_toNat]; omega)

end

/-! ### Encoding the fields of a word -/

theorem encodeA_fields {w : Word} {op : BitVec 4} (h : fieldOp w = op) : encodeA op (fieldNnn w) = w :=
  BitVec.eq_of_toNat_eq (by rw [encodeA_toNat, fieldNnn_toNat, ← h, fieldOp_toNat]; omega)

theorem encodeXK_fields {w : Word} {op : BitVec 4} (h : fieldOp w = op) :
    encodeXK op (fieldX w) (fieldKk w) = w :=
  BitVec.eq_of_toNat_eq (by rw [encodeXK_toNat, fieldX_val, fieldKk_toNat, ← h, fieldOp_toNat]; omega)

theorem encodeXY_fields {w : Word} {op : BitVec 4} (h : fieldOp w = op) :
    encodeXY op (fieldX w) (fieldY w) (fieldN w) = w :=
  BitVec.eq_of_toNat_eq (by
    rw [encodeXY_toNat, fieldX_val, fieldY_val, fieldN_val, ← h, fieldOp_toNat]; omega)

/-! ### The decoder by its first nibble (30_encoding.md R54) -/

section
variable {w : Word}

theorem decodeWord_op0 (h : fieldOp w = 0x0) :
    decodeWord w = .ok (decodeZero w) := by
  simp [decodeWord, h]

theorem decodeWord_op1 (h : fieldOp w = 0x1) :
    decodeWord w = .ok (.jp (fieldNnn w)) := by
  simp [decodeWord, h]

theorem decodeWord_op2 (h : fieldOp w = 0x2) :
    decodeWord w = .ok (.call (fieldNnn w)) := by
  simp [decodeWord, h]

theorem decodeWord_op3 (h : fieldOp w = 0x3) :
    decodeWord w = .ok (.seImm (fieldX w) (fieldKk w)) := by
  simp [decodeWord, h]

theorem decodeWord_op4 (h : fieldOp w = 0x4) :
    decodeWord w = .ok (.sneImm (fieldX w) (fieldKk w)) := by
  simp [decodeWord, h]

theorem decodeWord_op5 (h : fieldOp w = 0x5) :
    decodeWord w = if fieldN w = 0 then .ok (.seReg (fieldX w) (fieldY w)) else .error .skipEqual := by
  simp [decodeWord, h]

theorem decodeWord_op6 (h : fieldOp w = 0x6) :
    decodeWord w = .ok (.ldImm (fieldX w) (fieldKk w)) := by
  simp [decodeWord, h]

theorem decodeWord_op7 (h : fieldOp w = 0x7) :
    decodeWord w = .ok (.addImm (fieldX w) (fieldKk w)) := by
  simp [decodeWord, h]

theorem decodeWord_op8 (h : fieldOp w = 0x8) :
    decodeWord w = decodeAlu (fieldX w) (fieldY w) (fieldN w).val := by
  simp [decodeWord, h]

theorem decodeWord_op9 (h : fieldOp w = 0x9) :
    decodeWord w = if fieldN w = 0 then .ok (.sneReg (fieldX w) (fieldY w)) else .error .skipNotEqual := by
  simp [decodeWord, h]

theorem decodeWord_opA (h : fieldOp w = 0xA) :
    decodeWord w = .ok (.ldI (fieldNnn w)) := by
  simp [decodeWord, h]

theorem decodeWord_opB (h : fieldOp w = 0xB) :
    decodeWord w = .ok (.jpV0 (fieldNnn w)) := by
  simp [decodeWord, h]

theorem decodeWord_opC (h : fieldOp w = 0xC) :
    decodeWord w = .ok (.rnd (fieldX w) (fieldKk w)) := by
  simp [decodeWord, h]

theorem decodeWord_opD (h : fieldOp w = 0xD) :
    decodeWord w = .ok (.drw (fieldX w) (fieldY w) (fieldN w)) := by
  simp [decodeWord, h]

theorem decodeWord_opE (h : fieldOp w = 0xE) :
    decodeWord w = decodeKey (fieldX w) (fieldKk w) := by
  simp [decodeWord, h]

theorem decodeWord_opF (h : fieldOp w = 0xF) :
    decodeWord w = decodeMisc (fieldX w) (fieldKk w) := by
  simp [decodeWord, h]

/-- The sixteen cases of the first nibble. -/
theorem fieldOp_cases (w : Word) :
    fieldOp w = 0x0 ∨ fieldOp w = 0x1 ∨ fieldOp w = 0x2 ∨ fieldOp w = 0x3 ∨ fieldOp w = 0x4 ∨
    fieldOp w = 0x5 ∨ fieldOp w = 0x6 ∨ fieldOp w = 0x7 ∨ fieldOp w = 0x8 ∨ fieldOp w = 0x9 ∨
    fieldOp w = 0xA ∨ fieldOp w = 0xB ∨ fieldOp w = 0xC ∨ fieldOp w = 0xD ∨ fieldOp w = 0xE ∨
    fieldOp w = 0xF := by
  generalize fieldOp w = op
  revert op
  decide

end

end Sys2Proof
end

