-- ==== Sys2Proof/Laws/Memory.lean ====
section
/-!
SUPPORT. The laws of memory: a read after a write, the canonical form and that every memory operation keeps
it, and one lemma for each access primitive that says everything it can do.
-/

namespace Sys2Proof.Machine

/-! ### The list itself -/

@[simp] theorem Memory.read_nil (j : Nat) : Memory.read [] j = Memory.unlisted := rfl

@[simp] theorem Memory.read_cons (a : Nat) (b : Byte) (m : Memory) (j : Nat) :
    Memory.read ((a, b) :: m) j = if a = j then b else Memory.read m j := rfl

/-- A read after a write (20_memory.md R30): the address written reads as the byte, every other as before. -/
@[simp] theorem Memory.read_write (m : Memory) (k : Nat) (v : Byte) (j : Nat) :
    (Memory.write m k v).read j = if j = k then v else m.read j := by
  induction m with
  | nil =>
    simp only [Memory.write]
    split_ifs <;> simp_all [eq_comm]
  | cons c m ih =>
    obtain ⟨a, b⟩ := c
    simp only [Memory.write]
    split_ifs <;> simp only [Memory.read_cons, ih] <;> split_ifs <;> first | rfl | omega

theorem Memory.wfFrom_cons {lo a : Nat} {b : Byte} {m : Memory} :
    Memory.wfFrom lo ((a, b) :: m) = true ↔
      lo ≤ a ∧ a < 4096 ∧ b ≠ Memory.unlisted ∧ Memory.wfFrom (a + 1) m = true := by
  simp [Memory.wfFrom, Config.memSize, and_assoc]

theorem Memory.wfFrom_mono {lo lo' : Nat} (h : lo' ≤ lo) {m : Memory} (hm : Memory.wfFrom lo m = true) :
    Memory.wfFrom lo' m = true := by
  cases m with
  | nil => rfl
  | cons c m =>
    rw [Memory.wfFrom_cons] at hm ⊢
    exact ⟨h.trans hm.1, hm.2⟩

/-- Erasing below every listed address erases nothing. -/
theorem Memory.write_unlisted_below {lo k : Nat} (h : k < lo) {m : Memory} (hm : Memory.wfFrom lo m = true) :
    Memory.write m k Memory.unlisted = m := by
  induction m generalizing lo with
  | nil => rfl
  | cons c m ih =>
    obtain ⟨hlo, -, -, htl⟩ := Memory.wfFrom_cons.1 hm
    have hne : k ≠ c.1 := by omega
    simp only [Memory.write, hne, if_true, if_false]
    rw [ih (by omega) htl]

theorem Memory.wfFrom_write {lo k : Nat} {v : Byte} (hk : lo ≤ k) (hlt : k < 4096) {m : Memory}
    (hm : Memory.wfFrom lo m = true) : Memory.wfFrom lo (Memory.write m k v) = true := by
  induction m generalizing lo with
  | nil =>
    simp only [Memory.write]
    split_ifs with hv
    · rfl
    · exact Memory.wfFrom_cons.2 ⟨hk, hlt, hv, rfl⟩
  | cons c m ih =>
    obtain ⟨hlo, hsz, hb, htl⟩ := Memory.wfFrom_cons.1 hm
    by_cases hka : c.1 + 1 ≤ k
    · have hrec := Memory.wfFrom_cons.2 ⟨hlo, hsz, hb, ih hka htl⟩
      simp only [Memory.write]
      split_ifs
      all_goals first | exact hrec | omega
    · simp only [Memory.write]
      split_ifs with hv h1 h2 h3
      · subst hv
        rw [Memory.write_unlisted_below (by omega) htl]
        exact Memory.wfFrom_mono (by omega) htl
      · subst hv
        rw [Memory.write_unlisted_below (by omega) htl]
        exact hm
      · exact Memory.wfFrom_cons.2 ⟨hk, hlt, hv, Memory.wfFrom_cons.2 ⟨by omega, hsz, hb, htl⟩⟩
      · subst h3
        exact Memory.wfFrom_cons.2 ⟨hk, hlt, hv, htl⟩
      · omega

/-- Every write below 0x1000 keeps the canonical form. -/
theorem Memory.wf_write {m : Memory} (hm : m.wf = true) {k : Nat} (hk : k < 4096) (v : Byte) :
    (Memory.write m k v).wf = true := Memory.wfFrom_write (Nat.zero_le k) hk hm

/-- Two memories in canonical form that read the same are the same list. -/
theorem Memory.wfFrom_ext {lo : Nat} {m m' : Memory} (hm : Memory.wfFrom lo m = true)
    (hm' : Memory.wfFrom lo m' = true) (h : ∀ a, m.read a = m'.read a) : m = m' := by
  have below : ∀ {lo k : Nat} {m : Memory}, k < lo → Memory.wfFrom lo m = true →
      m.read k = Memory.unlisted := by
    intro lo k m hk hm
    induction m generalizing lo with
    | nil => rfl
    | cons c m ih =>
      obtain ⟨hlo, -, -, htl⟩ := Memory.wfFrom_cons.1 hm
      rw [Memory.read_cons, if_neg (by omega), ih (by omega) htl]
  induction m generalizing lo m' with
  | nil =>
    cases m' with
    | nil => rfl
    | cons c m' =>
      obtain ⟨-, -, hb, -⟩ := Memory.wfFrom_cons.1 hm'
      exact absurd (by simpa [Memory.read] using (h c.1).symm) hb
  | cons c m ih =>
    obtain ⟨hlo, hsz, hb, htl⟩ := Memory.wfFrom_cons.1 hm
    cases m' with
    | nil => exact absurd (by simpa [Memory.read] using h c.1) hb
    | cons d m' =>
      obtain ⟨hlo', hsz', hb', htl'⟩ := Memory.wfFrom_cons.1 hm'
      have hcd : c.1 = d.1 := by
        rcases Nat.lt_trichotomy c.1 d.1 with hlt | heq | hgt
        · have := h c.1
          rw [Memory.read_cons, if_pos rfl, Memory.read_cons, if_neg (by omega),
            below (by omega) htl'] at this
          exact absurd this hb
        · exact heq
        · have := h d.1
          rw [Memory.read_cons, if_neg (by omega), Memory.read_cons, if_pos rfl,
            below (by omega) htl] at this
          exact absurd this.symm hb'
      obtain ⟨a, b⟩ := c
      obtain ⟨a', b'⟩ := d
      dsimp only at hcd
      subst hcd
      have hbb : b = b' := by simpa using h a
      have hm2 : m = m' := by
        refine ih htl htl' fun j => ?_
        by_cases hj : a = j
        · subst hj
          rw [below (Nat.lt_succ_self a) htl, below (Nat.lt_succ_self a) htl']
        · simpa [hj] using h j
      rw [hbb, hm2]

/-! ### The access primitives (20_memory.md R31 to R35) -/

/-- Everything `MemRead(a, 1)` can answer (R31). -/
theorem memRead1_eq (s : State) (a : Nat) :
    memRead1 s a = if a < 4096 then .ok (s.byteAt a) else .error (.memoryOutOfRange a) := by
  simp only [memRead1, outOfRange, Config.memSize, decide_eq_true_eq]
  split_ifs
  all_goals first | rfl | omega

/-- Everything `MemWrite(a, 1, b)` can answer (R32). -/
theorem memWrite1_eq (s : State) (a : Nat) (b : Byte) :
    memWrite1 s a b =
      if a < 4096 then .ok (s.setMem (s.mem.write a b)) else .error (.memoryOutOfRange a) := by
  simp only [memWrite1, outOfRange, Config.memSize, decide_eq_true_eq]
  split_ifs
  all_goals first | rfl | omega

/-- The fault of a two-byte access, if any: the lowest address above 0xFFF (R33). -/
theorem pairFault_eq (a : Nat) :
    pairFault a =
      if a + 1 < 4096 then none else some (.memoryOutOfRange (max a 4096)) := by
  simp only [pairFault, outOfRange, Config.memSize, decide_eq_true_eq]
  split_ifs
  all_goals first | rfl | omega | (congr 2; omega)

/-- Everything `MemRead(a, 2)` can answer (R33). -/
theorem memRead2_eq (s : State) (a : Nat) :
    memRead2 s a =
      if a + 1 < 4096 then .ok (wordOfBytes (s.byteAt a) (s.byteAt (a + 1)))
      else .error (.memoryOutOfRange (max a 4096)) := by
  unfold memRead2
  rw [pairFault_eq]
  split_ifs <;> rfl

/-- Everything `MemWrite(a, 2, w)` can answer (R34). -/
theorem memWrite2_eq (s : State) (a : Nat) (w : Word) :
    memWrite2 s a w =
      if a + 1 < 4096 then .ok (s.setMem (s.mem.write2 a w))
      else .error (.memoryOutOfRange (max a 4096)) := by
  unfold memWrite2
  rw [pairFault_eq]
  split_ifs <;> rfl

/-- What memory reads as after a 16-bit write (R34, R37). -/
theorem Memory.read_write2 (m : Memory) (a : Nat) (w : Word) (j : Nat) :
    (m.write2 a w).read j =
      if j = a + 1 then w.extractLsb' 0 8 else if j = a then w.extractLsb' 8 8 else m.read j := by
  simp only [Memory.write2, Memory.read_write]

theorem Memory.wf_write2 {m : Memory} (hm : m.wf = true) {a : Nat} (ha : a + 1 < 4096) (w : Word) :
    (m.write2 a w).wf = true :=
  Memory.wf_write (Memory.wf_write hm (by omega) _) ha _

/-- Joining the two bytes of a word gives the word back (R37). -/
@[simp] theorem wordOfBytes_extract (w : Word) : wordOfBytes (w.extractLsb' 8 8) (w.extractLsb' 0 8) = w := by
  unfold wordOfBytes
  apply BitVec.eq_of_toNat_eq
  simp only [BitVec.toNat_append, BitVec.extractLsb'_toNat, Nat.shiftRight_zero]
  rw [← Nat.shiftLeft_add_eq_or_of_lt (by omega), Nat.shiftLeft_eq, Nat.shiftRight_eq_div_pow]
  have := w.isLt
  omega

/-- The bytes at `a`, `a + 1`, ..., `n` of them. -/
def bytesFrom (s : State) (a : Nat) : Nat → List Byte
  | 0 => []
  | n + 1 => s.byteAt a :: bytesFrom s (a + 1) n

@[simp] theorem length_bytesFrom (s : State) (a n : Nat) : (bytesFrom s a n).length = n := by
  induction n generalizing a with
  | zero => rfl
  | succ n ih => simp [bytesFrom, ih]

theorem getElem?_bytesFrom (s : State) (a n k : Nat) :
    (bytesFrom s a n)[k]? = if k < n then some (s.byteAt (a + k)) else none := by
  induction n generalizing a k with
  | zero => simp [bytesFrom]
  | succ n ih =>
    cases k with
    | zero => simp [bytesFrom]
    | succ k =>
      rw [bytesFrom, List.getElem?_cons_succ, ih]
      simp [Nat.add_assoc, Nat.add_comm 1 k]

/-- Everything a run of single-byte reads can answer: the bytes, or the lowest address above 0xFFF (R35). -/
theorem readBytes_eq (s : State) (a n : Nat) :
    readBytes s a n =
      if n = 0 ∨ a + n ≤ 4096 then .ok (bytesFrom s a n)
      else .error (.memoryOutOfRange (max a 4096)) := by
  induction n generalizing a with
  | zero => simp [readBytes, bytesFrom]
  | succ n ih =>
    rw [readBytes, memRead1_eq]
    by_cases ha : a < 4096
    · rw [if_pos ha, ih]
      by_cases hn : a + (n + 1) ≤ 4096
      · rw [if_pos (by omega), if_pos (by omega)]
        rfl
      · rw [if_neg (by omega), if_neg (by omega)]
        have : max (a + 1) 4096 = max a 4096 := by omega
        rw [this]
    · rw [if_neg ha, if_neg (by omega)]
      have : max a 4096 = a := by omega
      rw [this]

/-- Memory after the bytes `bs` are written at `a`, `a + 1`, ... -/
def Memory.writeAll (m : Memory) (a : Nat) : List Byte → Memory
  | [] => m
  | b :: bs => Memory.writeAll (m.write a b) (a + 1) bs

/-- Everything a run of single-byte writes can answer (R35). -/
theorem writeBytes_eq (s : State) (a : Nat) (bs : List Byte) :
    writeBytes s a bs =
      if bs = [] ∨ a + bs.length ≤ 4096 then .ok (s.setMem (s.mem.writeAll a bs))
      else .error (.memoryOutOfRange (max a 4096)) := by
  induction bs generalizing a s with
  | nil => simp [writeBytes, Memory.writeAll, State.setMem]
  | cons b bs ih =>
    rw [writeBytes, memWrite1_eq]
    by_cases ha : a < 4096
    · rw [if_pos ha]
      dsimp only
      rw [ih]
      by_cases hn : a + (b :: bs).length ≤ 4096
      · rw [List.length_cons] at hn
        rw [if_pos (by right; omega), if_pos (by right; rw [List.length_cons]; omega)]
        rfl
      · have hbs : bs ≠ [] := by
          intro h
          subst h
          simp only [List.length_cons, List.length_nil] at hn
          omega
        rw [List.length_cons] at hn
        rw [if_neg (by rintro (h | h); exacts [hbs h, by omega]),
          if_neg (by rintro (h | h); exacts [List.cons_ne_nil _ _ h, by rw [List.length_cons] at h; omega])]
        have : max (a + 1) 4096 = max a 4096 := by omega
        rw [this]
    · rw [if_neg ha, if_neg (by rintro (h | h); exacts [List.cons_ne_nil _ _ h, by rw [List.length_cons] at h; omega])]
      have : max a 4096 = a := by omega
      rw [this]

/-- What memory reads as after a run of single-byte writes. -/
theorem Memory.read_writeAll (m : Memory) (a : Nat) (bs : List Byte) (j : Nat) :
    (m.writeAll a bs).read j = if a ≤ j then (bs[j - a]?).getD (m.read j) else m.read j := by
  induction bs generalizing a m with
  | nil => simp [Memory.writeAll]
  | cons b bs ih =>
    rw [Memory.writeAll, ih, Memory.read_write]
    by_cases hj : a + 1 ≤ j
    · obtain ⟨d, rfl⟩ : ∃ d, j = a + 1 + d := ⟨j - (a + 1), by omega⟩
      have h1 : a + 1 + d - (a + 1) = d := by omega
      have h2 : a + 1 + d - a = d + 1 := by omega
      have h3 : ¬ a + 1 + d = a := by omega
      rw [if_pos hj, if_pos (show a ≤ a + 1 + d by omega), if_neg h3, h1, h2, List.getElem?_cons_succ]
    · rw [if_neg hj]
      by_cases he : j = a
      · subst he
        simp
      · rw [if_neg he, if_neg (by omega)]

theorem Memory.wf_writeAll {m : Memory} (hm : m.wf = true) {a : Nat} {bs : List Byte}
    (h : bs = [] ∨ a + bs.length ≤ 4096) : (m.writeAll a bs).wf = true := by
  induction bs generalizing a m with
  | nil => exact hm
  | cons b bs ih =>
    have h' : a + (bs.length + 1) ≤ 4096 := by simpa using h
    exact ih (Memory.wf_write hm (by omega) b) (by right; omega)

/-- Reset memory is in canonical form. -/
theorem State.resetFor_mem_wf (src : Config.ShiftSrc) : (State.resetFor src).mem.wf = true := rfl

theorem State.reset_mem_wf : State.reset.mem.wf = true := rfl

end Sys2Proof.Machine
end

