-- ==== Sys2Proof/Laws/Ops.lean ====
section
/-!
SUPPORT. One lemma for each shared operation, saying once everything it can do: fetch, the stack, the skip
primitive, the operand forms, the ranges of registers, the framebuffer's cells, the gate of a faulted
machine. Later proofs cite these and do not unfold the operation.
-/

namespace Sys2Proof.Machine

/-! ### Fetch and the stack -/

/-- Everything the fetch phase can answer (30_encoding.md R62, 20_memory.md R33). -/
theorem fetch_eq (s : State) :
    fetch s =
      if s.pc.toNat + 1 < 4096 then
        .ok (wordOfBytes (s.byteAt s.pc.toNat) (s.byteAt (s.pc.toNat + 1)), s.setPc (s.pc + 2))
      else .error (.memoryOutOfRange (max s.pc.toNat 4096)) := by
  unfold fetch
  rw [memRead2_eq]
  split_ifs <;> rfl

/-- Everything a pop can answer (40_control_flow.md R71). -/
theorem pop_eq (s : State) :
    pop s =
      if s.sp.toNat + 1 < 4096 then
        .ok (wordOfBytes (s.byteAt s.sp.toNat) (s.byteAt (s.sp.toNat + 1)), s.setSp (s.sp - 2))
      else .error (.memoryOutOfRange (max s.sp.toNat 4096)) := by
  unfold pop
  rw [memRead2_eq]
  split_ifs <;> rfl

/-- Everything a push can answer (40_control_flow.md R73). -/
theorem push_eq (s : State) (w : Word) :
    push s w =
      if s.pushAddr.toNat + 1 < 4096 then
        .ok ((s.setSp s.pushAddr).setMem (s.mem.write2 s.pushAddr.toNat w))
      else .error (.memoryOutOfRange (max s.pushAddr.toNat 4096)) := by
  unfold push
  rw [memWrite2_eq]
  rfl

/-- The skip primitive changes `PC` only (40_control_flow.md R79). -/
theorem skipIf_eq (c : Bool) (s : State) : skipIf c s = s.setPc (if c then s.pc + 2 else s.pc) := by
  cases c <;> rfl

/-! ### How an event ends -/

@[simp] theorem finish_ok (s : State) : finish (.ok s) = .next s := rfl

@[simp] theorem finish_error (f : Fault) : finish (.error f) = .fault f := rfl

@[simp] theorem raise_eq (f : Fault) : raise f = .fault f := rfl

theorem unlessFaulted_none {s : State} (h : s.fault = none) (r : Result) : unlessFaulted s r = r := by
  simp [unlessFaulted, h]

theorem unlessFaulted_some {s : State} {f : Fault} (h : s.fault = some f) (r : Result) :
    unlessFaulted s r = .next s := by
  simp [unlessFaulted, h]

/-- The latch after a fault holds one (60_exceptions.md R144). -/
theorem State.latch_fault (s : State) (f : Fault) : (s.latch f).fault = some (s.fault.getD f) := by
  unfold State.latch
  cases h : s.fault <;> simp [h]

/-! ### Operand forms -/

/-- A key number or the fault of a byte above 15 (44_timers_keys.md R136). -/
theorem keyOperand_of_lt {b : Byte} (h : b.toNat < 16) : keyOperand b = .ok ⟨b.toNat, h⟩ := by
  simp [keyOperand, h]

theorem keyOperand_of_ge {b : Byte} (h : 16 ≤ b.toNat) : keyOperand b = .error (.keyIndexOutOfRange b) := by
  simp [keyOperand, Nat.not_lt.2 h]

/-- The lowest key held, when one is (44_timers_keys.md R135). -/
theorem firstHeldFrom_eq_some {bs : List Bool} {k j : Nat} :
    firstHeldFrom k bs = some j ↔
      k ≤ j ∧ bs[j - k]? = some true ∧ ∀ m, k ≤ m → m < j → bs[m - k]? = some false := by
  induction bs generalizing k with
  | nil => simp [firstHeldFrom]
  | cons b bs ih =>
    have step : ∀ m, k < m → (b :: bs)[m - k]? = bs[m - (k + 1)]? := by
      intro m hm
      have : m - k = (m - (k + 1)) + 1 := by omega
      rw [this, List.getElem?_cons_succ]
    rw [firstHeldFrom]
    cases b with
    | true =>
      constructor
      · rintro h
        obtain rfl : k = j := by simpa using h
        simp
        omega
      · rintro ⟨hk, hj, hm⟩
        rcases Nat.eq_or_lt_of_le hk with rfl | hlt
        · rfl
        · simpa using hm k le_rfl hlt
    | false =>
      rw [if_neg (by simp), ih]
      constructor
      · rintro ⟨hk, hj, hm⟩
        refine ⟨by omega, by rw [step j (by omega)]; exact hj, fun m h1 h2 => ?_⟩
        rcases Nat.eq_or_lt_of_le h1 with rfl | hlt
        · simp
        · rw [step m hlt]
          exact hm m hlt h2
      · rintro ⟨hk, hj, hm⟩
        have hlt : k < j := by
          rcases Nat.eq_or_lt_of_le hk with rfl | hlt
          · simp at hj
          · exact hlt
        exact ⟨hlt, by rwa [step j hlt] at hj, fun m h1 h2 => by
          have := hm m (by omega) h2
          rwa [step m (by omega)] at this⟩

theorem firstHeldFrom_eq_none {bs : List Bool} {k : Nat} :
    firstHeldFrom k bs = none ↔ ∀ b ∈ bs, b = false := by
  induction bs generalizing k with
  | nil => simp [firstHeldFrom]
  | cons b bs ih => cases b <;> simp [firstHeldFrom, ih]

theorem State.keys_getElem? (s : State) (k : Key) : s.keys.toList[k.val]? = some (s.key k) := by
  simp [State.key]

/-- The lowest key held of a state (44_timers_keys.md R135). -/
theorem State.firstHeld_eq_some {s : State} {j : Nat} :
    s.firstHeld = some j ↔ ∃ k : Key, k.val = j ∧ s.key k = true ∧ ∀ m < k, s.key m = false := by
  unfold State.firstHeld
  rw [firstHeldFrom_eq_some]
  constructor
  · rintro ⟨-, hj, hm⟩
    have hlt : j < 16 := by
      by_contra hge
      rw [List.getElem?_eq_none (by simp; omega)] at hj
      cases hj
    refine ⟨⟨j, hlt⟩, rfl, ?_, fun m hmlt => ?_⟩
    · simpa [State.keys_getElem? s ⟨j, hlt⟩] using hj
    · have := hm m.val (Nat.zero_le _) hmlt
      rw [Nat.sub_zero, State.keys_getElem?] at this
      exact Option.some.inj this
  · rintro ⟨k, rfl, hk, hm⟩
    refine ⟨Nat.zero_le _, ?_, fun m _ hmlt => ?_⟩
    · rw [Nat.sub_zero, State.keys_getElem?, hk]
    · have := hm ⟨m, by omega⟩ hmlt
      rw [Nat.sub_zero]
      simpa [State.keys_getElem? s ⟨m, by omega⟩] using this

/-- No key is held (44_timers_keys.md R135). -/
theorem State.firstHeld_eq_none {s : State} : s.firstHeld = none ↔ ∀ k : Key, s.key k = false := by
  unfold State.firstHeld
  rw [firstHeldFrom_eq_none]
  constructor
  · intro h k
    exact h _ (List.mem_of_getElem? (State.keys_getElem? s k))
  · intro h b hb
    obtain ⟨k, hk⟩ := List.mem_iff_getElem?.1 hb
    have hlt : k < 16 := by
      by_contra hge
      rw [List.getElem?_eq_none (by simp; omega)] at hk
      cases hk
    rw [State.keys_getElem? s ⟨k, hlt⟩, h] at hk
    simpa using hk.symm

/-! ### Ranges of registers -/

@[simp] theorem State.length_regsUpTo (s : State) (x : Reg) : (s.regsUpTo x).length = x.val + 1 := by
  simp [State.regsUpTo]

/-- The k-th byte of the range `V[0]` to `V[x]` is `V[k]` (42_index_memory.md R114). -/
theorem State.getElem?_regsUpTo (s : State) (x k : Reg) (h : k ≤ x) :
    (s.regsUpTo x)[k.val]? = some (s.reg k) := by
  have : k.val < x.val + 1 := Nat.lt_succ_of_le h
  simp [State.regsUpTo, State.reg, this]

/-- Writing a range of registers changes registers only. -/
theorem State.setRegsFrom_eq (s : State) (k : Nat) (bs : List Byte) :
    ∃ v, s.setRegsFrom k bs = { s with v := v } := by
  induction bs generalizing s k with
  | nil => exact ⟨s.v, rfl⟩
  | cons b bs ih =>
    rw [State.setRegsFrom]
    split_ifs with h
    · obtain ⟨v, hv⟩ := ih (s.setReg ⟨k, h⟩ b) (k + 1)
      exact ⟨v, hv⟩
    · exact ih s (k + 1)

/-- The registers after a range is written (42_index_memory.md R115). -/
theorem State.reg_setRegsFrom (s : State) (k : Nat) (bs : List Byte) (r : Reg) :
    (s.setRegsFrom k bs).reg r =
      if k ≤ r.val then (bs[r.val - k]?).getD (s.reg r) else s.reg r := by
  induction bs generalizing s k with
  | nil => simp [State.setRegsFrom]
  | cons b bs ih =>
    rw [State.setRegsFrom, ih]
    rcases Nat.lt_trichotomy k r.val with hlt | heq | hgt
    · have hk : k < 16 := by omega
      have hne : r ≠ ⟨k, hk⟩ := fun h => by simp [h] at hlt
      have hs : r.val - k = (r.val - (k + 1)) + 1 := by omega
      rw [dif_pos hk, if_pos (by omega), if_pos (by omega), State.reg_setReg, if_neg hne, hs,
        List.getElem?_cons_succ]
    · subst heq
      rw [dif_pos r.isLt, if_neg (by omega), if_pos le_rfl, State.reg_setReg, if_pos rfl]
      simp
    · rw [if_neg (by omega), if_neg (by omega)]
      split_ifs with h
      · have hne : r ≠ ⟨k, h⟩ := fun he => by simp [he] at hgt
        rw [State.reg_setReg, if_neg hne]
      · rfl

/-! ### The framebuffer -/

/-- Toggling a cell changes that cell and no other (43_display.md R122). -/
@[simp] theorem Framebuffer.cell_toggle (f : Framebuffer) (px : Fin 64) (py : Fin 32) (qx : Fin 64)
    (qy : Fin 32) :
    (f.toggle px py).cell qx qy = if qx = px ∧ qy = py then !(f.cell px py) else f.cell qx qy := by
  unfold Framebuffer.toggle Framebuffer.cell
  by_cases hy : qy = py
  · subst hy
    by_cases hx : qx = px
    · subst hx
      simp
    · have : px.val ≠ qx.val := fun h => hx (Fin.ext h.symm)
      simp [hx, this]
  · have : py.val ≠ qy.val := fun h => hy (Fin.ext h.symm)
    simp [hy, this]

@[simp] theorem Framebuffer.cell_clear (px : Fin 64) (py : Fin 32) :
    Framebuffer.clear.cell px py = false := by
  simp [Framebuffer.clear, Framebuffer.cell]

/-- Two framebuffers with the same cells are the same. -/
theorem Framebuffer.ext_cells {f g : Framebuffer} (h : ∀ px py, f.cell px py = g.cell px py) : f = g := by
  apply Vector.ext
  intro y hy
  apply Vector.ext
  intro x hx
  exact h ⟨x, hx⟩ ⟨y, hy⟩

/-! ### The step -/

theorem step_of_no_event {s : State} (h : s.host = []) : step s = tick s := by
  simp [step, State.nextEvent, h, hostEvent]

theorem step_of_event {s : State} {e : HostEvent} {rest : List HostEvent} (h : s.host = e :: rest) :
    step s = hostEvent e (s.setHost rest) := by
  simp [step, State.nextEvent, h]

/-- A state whose `FAULT` is set stands still under every event but `reset` (60_exceptions.md R145). -/
theorem tick_of_fault {s : State} {f : Fault} (h : s.fault = some f) : tick s = .next s :=
  unlessFaulted_some h _

/-- Everything a `tick` can answer while no fault is latched (30_encoding.md R62, 60_exceptions.md R143). -/
theorem tick_of_running {s : State} (h : s.fault = none) :
    tick s =
      if s.pc.toNat + 1 < 4096 then
        decodeAndExecute (wordOfBytes (s.byteAt s.pc.toNat) (s.byteAt (s.pc.toNat + 1)))
          (s.start.setPc (s.pc + 2))
      else .fault (.memoryOutOfRange (max s.pc.toNat 4096)) := by
  unfold tick
  rw [unlessFaulted_none h, fetch_eq]
  by_cases hp : s.pc.toNat + 1 < 4096
  · have hp' : s.start.pc.toNat + 1 < 4096 := hp
    rw [if_pos hp, if_pos hp']
    rfl
  · have hp' : ¬ s.start.pc.toNat + 1 < 4096 := hp
    rw [if_neg hp, if_neg hp']
    rfl

end Sys2Proof.Machine
end

