-- ==== Sys2Proof/Laws/Frame.lean ====
section
/-!
SUPPORT. What an instruction can change, said once for all instructions: its registers, its pieces of state
and the bytes it stores to. Rules about the whole machine follow from `exec_frame` by cases on the
instruction, without unfolding a meaning.
-/

namespace Sys2Proof.Machine

/-! ### Frames compose with the updates -/

@[simp] theorem noReg_iff (r : Reg) : noReg r ↔ False := Iff.rfl

@[simp] theorem noByte_iff (a : Nat) : noByte a ↔ False := Iff.rfl

theorem Frame.refl (s : State) : Frame noReg [] noByte s s := by simp [Frame]

/-- A run of stores changes its own bytes only. -/
theorem frame_writeAll (s : State) (a : Nat) (bs : List Byte) :
    Frame noReg [] (fun b => a ≤ b ∧ b < a + bs.length) s (s.setMem (s.mem.writeAll a bs)) := by
  simp only [Frame, noReg_iff, State.reg_setMem, State.setMem_i, State.setMem_pc, State.setMem_sp,
    State.setMem_dt, State.setMem_st, State.key_setMem, State.pixel_setMem, State.setMem_draws,
    State.setMem_fault, State.setMem_run, State.setMem_shiftSrc, State.setMem_host, not_and, not_lt,
    implies_true, true_and, and_true]
  intro b hb
  rw [State.byteAt_setMem, Memory.read_writeAll]
  split_ifs with h
  · have := hb h
    rw [List.getElem?_eq_none (by omega)]
    rfl
  · rfl

/-- Writing the first registers changes those only. -/
theorem frame_setRegsFrom (s : State) (bs : List Byte) :
    Frame (fun r => r.val < bs.length) [] noByte s (s.setRegsFrom 0 bs) := by
  obtain ⟨v, hv⟩ := State.setRegsFrom_eq s 0 bs
  refine ⟨fun r hr => ?_, ?_⟩
  · rw [State.reg_setRegsFrom, if_pos (Nat.zero_le _), List.getElem?_eq_none (by omega)]
    rfl
  · rw [hv]
    simp only [State.key, State.pixel, State.byteAt, implies_true, and_self]

/-! ### The footprint of an instruction -/

/-- The general registers an instruction may write (10_state.md R10, R11). -/
def Instr.regsWritten : Instr → Reg → Prop
  | .ldImm x _ | .addImm x _ | .ldReg x _ | .rnd x _ | .ldVxDt x | .ldVxK x => (· = x)
  | .orReg x _ | .andReg x _ | .xorReg x _ | .addReg x _ | .subReg x _ | .shrReg x _ | .subnReg x _
  | .shlReg x _ => fun r => r = x ∨ r = vF
  | .addI _ | .drw _ _ _ => (· = vF)
  | .loadRegs x => (· ≤ x)
  | .sys _ | .cls | .ret | .jp _ | .call _ | .seImm _ _ | .sneImm _ _ | .seReg _ _ | .sneReg _ _
  | .ldI _ | .jpV0 _ | .skp _ | .sknp _ | .ldDtVx _ | .ldStVx _ | .ldF _ | .ldB _ | .storeRegs _ => noReg

/-- The other pieces of state an instruction may write (10_state.md R12 to R16, R22, R25). -/
def Instr.piecesWritten : Instr → List Piece
  | .ret | .call _ => [.pc, .sp]
  | .jp _ | .jpV0 _ | .seImm _ _ | .sneImm _ _ | .seReg _ _ | .sneReg _ _ | .skp _ | .sknp _
  | .ldVxK _ => [.pc]
  | .ldI _ | .addI _ | .ldF _ => [.i]
  | .rnd _ _ => [.draws]
  | .cls | .drw _ _ _ => [.screen]
  | .ldDtVx _ => [.dt]
  | .ldStVx _ => [.st]
  | .sys _ | .ldImm _ _ | .addImm _ _ | .ldReg _ _ | .orReg _ _ | .andReg _ _ | .xorReg _ _ | .addReg _ _
  | .subReg _ _ | .shrReg _ _ | .subnReg _ _ | .shlReg _ _ | .ldVxDt _ | .ldB _ | .storeRegs _
  | .loadRegs _ => []

/-- The bytes of memory an instruction stores to, from the state it starts in (20_memory.md R39). -/
def Instr.bytesStored (i : Instr) (s : State) : Nat → Prop :=
  match i with
  | .call _ => fun a => a = s.pushAddr.toNat ∨ a = s.pushAddr.toNat + 1
  | .ldB _ => fun a => s.dataAddr ≤ a ∧ a ≤ s.dataAddr + 2
  | .storeRegs x => fun a => s.dataAddr ≤ a ∧ a ≤ s.dataAddr + x.val
  | .sys _ | .cls | .ret | .jp _ | .seImm _ _ | .sneImm _ _ | .seReg _ _ | .sneReg _ _ | .ldImm _ _
  | .addImm _ _ | .ldReg _ _ | .orReg _ _ | .andReg _ _ | .xorReg _ _ | .addReg _ _ | .subReg _ _
  | .shrReg _ _ | .subnReg _ _ | .shlReg _ _ | .ldI _ | .jpV0 _ | .rnd _ _ | .drw _ _ _ | .skp _
  | .sknp _ | .ldVxDt _ | .ldVxK _ | .ldDtVx _ | .ldStVx _ | .addI _ | .ldF _ | .loadRegs _ => noByte

theorem frame_skipIf (c : Bool) (s : State) : Frame noReg [.pc] noByte s (skipIf c s) := by
  rw [skipIf_eq]
  simp [Frame]

theorem frame_setResult (s : State) (x : Reg) (r : Byte) (flag : Bool) :
    Frame (fun q => q = x ∨ q = vF) [] noByte s (s.setResult x r flag) := by
  simp +contextual [Frame]

theorem frame_setReg (s : State) (x : Reg) (b : Byte) : Frame (· = x) [] noByte s (s.setReg x b) := by
  simp +contextual [Frame]

theorem skipByKey_frame {test : Bool → Bool} {x : Reg} {s t : State} (h : skipByKey test x s = .next t) :
    Frame noReg [.pc] noByte s t := by
  unfold skipByKey at h
  split at h
  · cases h
  · cases h
    exact frame_skipIf _ s

/-- What an instruction can change: everything outside its footprint is as before. -/
theorem exec_frame {i : Instr} {s t : State} (h : exec i s = .next t) :
    Frame (Instr.regsWritten i) (Instr.piecesWritten i) (Instr.bytesStored i s) s t := by
  cases i with
  | sys nnn => cases h
  | cls =>
    cases h
    simp [Frame, Instr.regsWritten, Instr.piecesWritten, Instr.bytesStored]
  | ret =>
    simp only [exec, execRet, pop_eq] at h
    split at h
    · cases h
    · rename_i he
      split_ifs at he
      cases he
      cases h
      simp [Frame, Instr.regsWritten, Instr.piecesWritten, Instr.bytesStored]
  | call nnn =>
    simp only [exec, execCall, push_eq] at h
    split at h
    · cases h
    · rename_i he
      split_ifs at he
      cases he
      cases h
      simp +contextual [Frame, Instr.regsWritten, Instr.piecesWritten, Instr.bytesStored, State.byteAt,
        Memory.read_write2]
  | jp nnn | jpV0 nnn | ldDtVx x | ldStVx x | ldI nnn | ldF x =>
    cases h
    simp [Frame, Instr.regsWritten, Instr.piecesWritten, Instr.bytesStored]
  | seImm x kk | sneImm x kk | seReg x y | sneReg x y =>
    cases h
    exact frame_skipIf _ s
  | ldImm x kk | addImm x kk | ldReg x y | ldVxDt x =>
    cases h
    exact frame_setReg s _ _
  | orReg x y | andReg x y | xorReg x y | addReg x y | subReg x y | shrReg x y | subnReg x y | shlReg x y =>
    cases h
    exact frame_setResult s _ _ _
  | rnd x kk =>
    cases h
    simp +contextual [Frame, Instr.regsWritten, Instr.piecesWritten, Instr.bytesStored, randomInto]
  | addI x =>
    cases h
    simp +contextual [Frame, Instr.regsWritten, Instr.piecesWritten, Instr.bytesStored]
  | drw x y n =>
    simp only [exec, execDrw, readBytes_eq] at h
    split at h
    · cases h
    · cases h
      simp +contextual [Frame, Instr.regsWritten, Instr.piecesWritten, Instr.bytesStored]
  | skp x => exact skipByKey_frame (test := fun pressed => pressed) h
  | sknp x => exact skipByKey_frame (test := fun pressed => !pressed) h
  | ldVxK x =>
    simp only [exec, execLdVxK] at h
    split at h
    · cases h
      simp +contextual [Frame, Instr.regsWritten, Instr.piecesWritten, Instr.bytesStored]
    · cases h
      simp [Frame, Instr.regsWritten, Instr.piecesWritten, Instr.bytesStored]
  | ldB x =>
    simp only [exec, execLdB, writeBytes_eq] at h
    split_ifs at h
    · cases h
      have := frame_writeAll s s.dataAddr (bcdDigits (s.reg x))
      simpa [bcdDigits, Instr.regsWritten, Instr.piecesWritten, Instr.bytesStored, Nat.lt_succ_iff] using this
    · cases h
  | storeRegs x =>
    simp only [exec, execStoreRegs, writeBytes_eq] at h
    split_ifs at h
    · cases h
      have := frame_writeAll s s.dataAddr (s.regsUpTo x)
      rw [State.length_regsUpTo] at this
      simpa [Instr.regsWritten, Instr.piecesWritten, Instr.bytesStored, ← Nat.add_assoc,
        Nat.lt_succ_iff] using this
    · cases h
  | loadRegs x =>
    simp only [exec, execLoadRegs] at h
    split at h
    · cases h
    · rename_i bs he
      rw [readBytes_eq] at he
      by_cases hc : x.val + 1 = 0 ∨ s.dataAddr + (x.val + 1) ≤ 4096
      · rw [if_pos hc] at he
        cases he
        cases h
        have := frame_setRegsFrom s (bytesFrom s s.dataAddr (x.val + 1))
        rw [length_bytesFrom] at this
        simpa [Instr.regsWritten, Instr.piecesWritten, Instr.bytesStored, Nat.lt_succ_iff] using this
      · rw [if_neg hc] at he
        cases he

end Sys2Proof.Machine
end

