-- ==== Sys2Proof/Laws/PerInstr.lean ====
section
/-!
SUPPORT. Statements about every instruction as syntax, one lemma for each constructor.
-/

namespace Sys2Proof.Laws

/-! ### Masks of the six formats (30_encoding.md R52) -/

/-- Masking an append masks its parts. -/
theorem append_and_append {m n : Nat} (a c : BitVec m) (b d : BitVec n) :
    (a ++ b) &&& (c ++ d) = (a &&& c) ++ (b &&& d) := by
  ext i h
  simp only [BitVec.getElem_and, BitVec.getElem_append]
  split <;> rfl

theorem and_zeros {n : Nat} (a : BitVec n) : a &&& (0 : BitVec n) = 0 := BitVec.and_zero

theorem encodeA_masked (op : BitVec 4) (nnn : Addr12) :
    encodeA op nnn &&& 0xF000 = op ++ (0 : BitVec 12) := by
  have h : (0xF000 : Word) = (0xF : BitVec 4) ++ (0 : BitVec 12) := by decide
  have hop : op &&& 0xF = op := by revert op; decide
  rw [encodeA, h, append_and_append, hop, and_zeros]

theorem encodeXK_masked (op : BitVec 4) (x : Reg) (kk : Byte) :
    encodeXK op x kk &&& 0xF000 = op ++ (0 : BitVec 4) ++ (0 : BitVec 8) := by
  have h : (0xF000 : Word) = (0xF : BitVec 4) ++ (0 : BitVec 4) ++ (0 : BitVec 8) := by decide
  have hop : op &&& 0xF = op := by revert op; decide
  rw [encodeXK, h, append_and_append, append_and_append, hop, and_zeros, and_zeros]

theorem encodeXK_masked_byte (op : BitVec 4) (x : Reg) (kk : Byte) :
    encodeXK op x kk &&& 0xF0FF = op ++ (0 : BitVec 4) ++ kk := by
  have h : (0xF0FF : Word) = (0xF : BitVec 4) ++ (0 : BitVec 4) ++ (0xFF : BitVec 8) := by decide
  have hop : op &&& 0xF = op := by revert op; decide
  have hkk : kk &&& 0xFF = kk := BitVec.and_allOnes
  rw [encodeXK, h, append_and_append, append_and_append, hop, hkk, and_zeros]

theorem encodeXY_masked (op : BitVec 4) (x y : Reg) (n : Fin 16) :
    encodeXY op x y n &&& 0xF00F = op ++ (0 : BitVec 4) ++ (0 : BitVec 4) ++ BitVec.ofFin (w := 4) n := by
  have h : (0xF00F : Word) = (0xF : BitVec 4) ++ (0 : BitVec 4) ++ (0 : BitVec 4) ++ (0xF : BitVec 4) := by
    decide
  have hop : op &&& 0xF = op := by revert op; decide
  have hn : BitVec.ofFin (w := 4) n &&& 0xF = BitVec.ofFin (w := 4) n := by revert n; decide
  rw [encodeXY, h, append_and_append, append_and_append, append_and_append, hop, hn, and_zeros,
    and_zeros]

theorem encodeXY_masked_op (op : BitVec 4) (x y : Reg) (n : Fin 16) :
    encodeXY op x y n &&& 0xF000 = op ++ (0 : BitVec 4) ++ (0 : BitVec 4) ++ (0 : BitVec 4) := by
  have h : (0xF000 : Word) = (0xF : BitVec 4) ++ (0 : BitVec 4) ++ (0 : BitVec 4) ++ (0 : BitVec 4) := by
    decide
  have hop : op &&& 0xF = op := by revert op; decide
  rw [encodeXY, h, append_and_append, append_and_append, append_and_append, hop, and_zeros,
    and_zeros, and_zeros]

end Sys2Proof.Laws

namespace Sys2Proof.Laws.EncodesRow

/-- A well-formed instruction's word lies in its own row of the opcode table (30_encoding.md R55): its bits
under the row's mask are the row's pattern, and the row it lies in is executable or the word is neither
`CLS` nor `RET` (row 1's exception). -/
def Statement (i : Instr) : Prop :=
  i.wellFormed = true →
    encode i &&& i.row.mask = i.row.pattern ∧
      (i.executes = false → encode i ≠ encode .cls ∧ encode i ≠ encode .ret)

/-- An executable instruction needs the mask alone. -/
theorem of_masked {i : Instr} (he : i.executes = true) (h : encode i &&& i.row.mask = i.row.pattern) :
    Statement i := fun _ => ⟨h, fun hf => by simp [he] at hf⟩

theorem sys (nnn : Addr12) : Statement (.sys nnn) := by
  intro hw
  have hz : ∀ c : Addr12, (encodeA 0 c).toNat = c.toNat := fun c =>
    (BitVec.toNat_append (0 : BitVec 4) c).trans (by simp)
  have hlow : ∀ c : Addr12, encodeA 0 nnn = encodeA 0 c → nnn = c := fun c hc =>
    BitVec.eq_of_toNat_eq (by rw [← hz nnn, ← hz c, hc])
  simp only [Instr.wellFormed, sysAddressOk, Bool.and_eq_true, bne_iff_ne] at hw
  refine ⟨encodeA_masked 0 nnn, fun _ => ⟨fun h => hw.1 (hlow _ h), fun h => hw.2 (hlow _ h)⟩⟩

theorem cls : Statement .cls := of_masked rfl (by decide)

theorem ret : Statement .ret := of_masked rfl (by decide)

theorem jp (nnn : Addr12) : Statement (.jp nnn) :=
  of_masked rfl (encodeA_masked 0x1 nnn)

theorem call (nnn : Addr12) : Statement (.call nnn) :=
  of_masked rfl (encodeA_masked 0x2 nnn)

theorem seImm (x : Reg) (kk : Byte) : Statement (.seImm x kk) :=
  of_masked rfl (encodeXK_masked 0x3 x kk)

theorem sneImm (x : Reg) (kk : Byte) : Statement (.sneImm x kk) :=
  of_masked rfl (encodeXK_masked 0x4 x kk)

theorem seReg (x : Reg) (y : Reg) : Statement (.seReg x y) :=
  of_masked rfl (encodeXY_masked 0x5 x y 0x0)

theorem ldImm (x : Reg) (kk : Byte) : Statement (.ldImm x kk) :=
  of_masked rfl (encodeXK_masked 0x6 x kk)

theorem addImm (x : Reg) (kk : Byte) : Statement (.addImm x kk) :=
  of_masked rfl (encodeXK_masked 0x7 x kk)

theorem ldReg (x : Reg) (y : Reg) : Statement (.ldReg x y) :=
  of_masked rfl (encodeXY_masked 0x8 x y 0x0)

theorem orReg (x : Reg) (y : Reg) : Statement (.orReg x y) :=
  of_masked rfl (encodeXY_masked 0x8 x y 0x1)

theorem andReg (x : Reg) (y : Reg) : Statement (.andReg x y) :=
  of_masked rfl (encodeXY_masked 0x8 x y 0x2)

theorem xorReg (x : Reg) (y : Reg) : Statement (.xorReg x y) :=
  of_masked rfl (encodeXY_masked 0x8 x y 0x3)

theorem addReg (x : Reg) (y : Reg) : Statement (.addReg x y) :=
  of_masked rfl (encodeXY_masked 0x8 x y 0x4)

theorem subReg (x : Reg) (y : Reg) : Statement (.subReg x y) :=
  of_masked rfl (encodeXY_masked 0x8 x y 0x5)

theorem shrReg (x : Reg) (y : Reg) : Statement (.shrReg x y) :=
  of_masked rfl (encodeXY_masked 0x8 x y 0x6)

theorem subnReg (x : Reg) (y : Reg) : Statement (.subnReg x y) :=
  of_masked rfl (encodeXY_masked 0x8 x y 0x7)

theorem shlReg (x : Reg) (y : Reg) : Statement (.shlReg x y) :=
  of_masked rfl (encodeXY_masked 0x8 x y 0xE)

theorem sneReg (x : Reg) (y : Reg) : Statement (.sneReg x y) :=
  of_masked rfl (encodeXY_masked 0x9 x y 0x0)

theorem ldI (nnn : Addr12) : Statement (.ldI nnn) :=
  of_masked rfl (encodeA_masked 0xA nnn)

theorem jpV0 (nnn : Addr12) : Statement (.jpV0 nnn) :=
  of_masked rfl (encodeA_masked 0xB nnn)

theorem rnd (x : Reg) (kk : Byte) : Statement (.rnd x kk) :=
  of_masked rfl (encodeXK_masked 0xC x kk)

theorem drw (x : Reg) (y : Reg) (n : RowCount) : Statement (.drw x y n) :=
  of_masked rfl (encodeXY_masked_op 0xD x y n)

theorem skp (x : Reg) : Statement (.skp x) :=
  of_masked rfl (encodeXK_masked_byte 0xE x 0x9E)

theorem sknp (x : Reg) : Statement (.sknp x) :=
  of_masked rfl (encodeXK_masked_byte 0xE x 0xA1)

theorem ldVxDt (x : Reg) : Statement (.ldVxDt x) :=
  of_masked rfl (encodeXK_masked_byte 0xF x 0x07)

theorem ldVxK (x : Reg) : Statement (.ldVxK x) :=
  of_masked rfl (encodeXK_masked_byte 0xF x 0x0A)

theorem ldDtVx (x : Reg) : Statement (.ldDtVx x) :=
  of_masked rfl (encodeXK_masked_byte 0xF x 0x15)

theorem ldStVx (x : Reg) : Statement (.ldStVx x) :=
  of_masked rfl (encodeXK_masked_byte 0xF x 0x18)

theorem addI (x : Reg) : Statement (.addI x) :=
  of_masked rfl (encodeXK_masked_byte 0xF x 0x1E)

theorem ldF (x : Reg) : Statement (.ldF x) :=
  of_masked rfl (encodeXK_masked_byte 0xF x 0x29)

theorem ldB (x : Reg) : Statement (.ldB x) :=
  of_masked rfl (encodeXK_masked_byte 0xF x 0x33)

theorem storeRegs (x : Reg) : Statement (.storeRegs x) :=
  of_masked rfl (encodeXK_masked_byte 0xF x 0x55)

theorem loadRegs (x : Reg) : Statement (.loadRegs x) :=
  of_masked rfl (encodeXK_masked_byte 0xF x 0x65)

end Sys2Proof.Laws.EncodesRow
end

