-- ==== Sys2Proof/Tests/Slice0.lean ====
section
/-!
SUPPORT. Small tests. Every expected value is the spec's: 95_test_vectors.md by the name of its vector, or an
example of the instruction's rule. After them, for each obligation with hypotheses, a state and operands that
meet them.
-/

namespace Sys2Proof.Tests

open Sys2Proof Sys2Proof.Machine

/-! ### Helpers -/

/-- A field of the next state, if the outcome is one. -/
def rd {α : Type} (f : State → α) : Result → Option α
  | .next s => some (f s)
  | .fault _ => none
  | .refused _ => none

/-- The fault, if the outcome is one. -/
def fl : Result → Option Fault
  | .fault f => some f
  | .next _ => none
  | .refused _ => none

/-- One step that fetches the word `w`. -/
def run (w : Nat) (s : State) : Result := step (s.withFetchWord 16 w)

/-- The state with the registers of the list written. -/
def regs (l : List (Reg × Byte)) (s : State) : State := l.foldl (fun t p => t.setReg p.1 p.2) s

/-- The state with bytes placed from an address on. -/
def bytes (a : Nat) (l : List Byte) (s : State) : State :=
  s.setMem ((l.zipIdx a).foldl (fun m p => m.write p.2 p.1) s.mem)

/-- `V[1] = a`, `V[2] = b`, `VF = 1`: the start of the vectors of section 4. -/
def v12 (a b : Byte) : State := regs [(1, a), (2, b), (15, 1)] State.reset

/-- The two registers a two-register vector of section 4.1 checks. -/
def v1f (s : State) : Byte × Byte := (s.reg 1, s.reg 15)

/-- The lit cells of a row. -/
def litRow (py : Fin 32) (s : State) : List Nat :=
  (List.range 64).filter (fun c => s.pixel (Fin.ofNat 64 c) py)

/-- The error a word decodes to, if it is invalid. -/
def invalid (w : Word) : Option Invalid :=
  match decodeWord w with
  | .error e => some e
  | .ok _ => none

/-! ### The table of fixed parameters (00_scope.md R4) and the cause codes (60_exceptions.md R140) -/

theorem test_sizes : Config.nreg = 16 ∧ Config.xlen = 8 ∧ Config.alen = 16 ∧ Config.memSize = 4096 ∧
    Config.fbWidth = 64 ∧ Config.fbHeight = 32 ∧ Config.fbCells = 2048 ∧ Config.nkey = 16 ∧ Config.ilen = 16 := by
  decide
theorem test_literals : Config.pcReset = 0x200 ∧ Config.spReset = 0xFA0 ∧ Config.romBase = 0x200 ∧
    Config.iFlagLimit = 0x1000 ∧ Config.soundThreshold = 2 ∧ Config.fontGlyphs = 16 ∧
    Config.fontGlyphBytes = 5 ∧ Config.spriteWidth = 8 := by decide
theorem test_codes : (fl (run 0x0000 State.reset)).map Fault.code = some 1 ∧
    (fl (step (State.reset.setPc 0xFFF))).map Fault.code = some 2 ∧
    (fl (run 0xE59E (regs [(5, 0x10)] State.reset))).map Fault.code = some 4 ∧
    (fl (hostEvent (.load [0x07] 0x1000) State.reset)).map Fault.code = some 5 := by decide

/-! ### Well-formedness: what the one check refuses -/

theorem test_sys_cls_refused : (Instr.sys 0x0E0).wellFormed = false := by decide
theorem test_sys_ret_refused : (Instr.sys 0x0EE).wellFormed = false := by decide
theorem test_sys_ok : (Instr.sys 0x0E1).wellFormed = true ∧ (Instr.sys 0x000).wellFormed = true := by decide

/-! ### Decoding (section 2): every constructor, by a word written out from its pattern -/

theorem test_decode_zero :
    decodeTableWord 16 0b0000000011100000 = some .cls ∧
    decodeTableWord 16 0b0000000011101110 = some .ret ∧
    decodeTableWord 16 0b0000000100100011 = some (.sys 0x123) ∧
    decodeTableWord 16 0b0000000000000000 = some (.sys 0x000) := by decide
theorem test_decode_control :
    decodeTableWord 16 0b0001101010111100 = some (.jp 0xABC) ∧
    decodeTableWord 16 0b0010101010111100 = some (.call 0xABC) ∧
    decodeTableWord 16 0b1011001100000000 = some (.jpV0 0x300) := by decide
theorem test_decode_skips :
    decodeTableWord 16 0b0011101000000101 = some (.seImm 0xA 0x05) ∧
    decodeTableWord 16 0b0100101000000101 = some (.sneImm 0xA 0x05) ∧
    decodeTableWord 16 0b0101000100100000 = some (.seReg 1 2) ∧
    decodeTableWord 16 0b1001000100100000 = some (.sneReg 1 2) := by decide
theorem test_decode_immediates :
    decodeTableWord 16 0b0110101000000101 = some (.ldImm 0xA 0x05) ∧
    decodeTableWord 16 0b0111000111111111 = some (.addImm 1 0xFF) ∧
    decodeTableWord 16 0b1100001100001111 = some (.rnd 3 0x0F) := by decide
theorem test_decode_alu :
    decodeTableWord 16 0b1000000100100000 = some (.ldReg 1 2) ∧
    decodeTableWord 16 0b1000000100100001 = some (.orReg 1 2) ∧
    decodeTableWord 16 0b1000000100100010 = some (.andReg 1 2) ∧
    decodeTableWord 16 0b1000000100100011 = some (.xorReg 1 2) ∧
    decodeTableWord 16 0b1000000100100100 = some (.addReg 1 2) ∧
    decodeTableWord 16 0b1000000100100101 = some (.subReg 1 2) ∧
    decodeTableWord 16 0b1000000100100110 = some (.shrReg 1 2) ∧
    decodeTableWord 16 0b1000000100100111 = some (.subnReg 1 2) ∧
    decodeTableWord 16 0b1000000100101110 = some (.shlReg 1 2) := by decide
theorem test_decode_display_and_keys :
    decodeTableWord 16 0b1101000100100101 = some (.drw 1 2 5) ∧
    decodeTableWord 16 0b1110010110011110 = some (.skp 5) ∧
    decodeTableWord 16 0b1110010110100001 = some (.sknp 5) := by decide
theorem test_decode_misc :
    decodeTableWord 16 0b1111001100000111 = some (.ldVxDt 3) ∧
    decodeTableWord 16 0b1111001100001010 = some (.ldVxK 3) ∧
    decodeTableWord 16 0b1111001100010101 = some (.ldDtVx 3) ∧
    decodeTableWord 16 0b1111001100011000 = some (.ldStVx 3) := by decide
theorem test_decode_index :
    decodeTableWord 16 0b1010001100000000 = some (.ldI 0x300) ∧
    decodeTableWord 16 0b1111101000011110 = some (.addI 0xA) ∧
    decodeTableWord 16 0b1111000000101001 = some (.ldF 0) ∧
    decodeTableWord 16 0b1111000000110011 = some (.ldB 0) ∧
    decodeTableWord 16 0b1111001001010101 = some (.storeRegs 2) ∧
    decodeTableWord 16 0b1111001001100101 = some (.loadRegs 2) := by decide
theorem test_decode_invalid :
    invalid 0x5121 = some .skipEqual ∧ invalid 0x9121 = some .skipNotEqual ∧ invalid 0x8128 = some .alu ∧
    invalid 0x812F = some .alu ∧ invalid 0xE000 = some .key ∧ invalid 0xE59F = some .key ∧
    invalid 0xF1FF = some .misc ∧ invalid 0xF108 = some .misc := by decide

/-! ### Control flow (section 3) -/

/-- CF23, CF22. -/
theorem test_sys_faults : fl (run 0x0123 State.reset) = some (.invalidOpcode 0x0123) ∧
    fl (run 0x0000 State.reset) = some (.invalidOpcode 0x0000) := by decide
/-- CF3. -/
theorem test_ret : rd (fun s => (s.pc, s.sp)) (run 0x00EE ((bytes 0xFA2 [0x02, 0x46] State.reset).setSp 0xFA2)) =
    some (0x0246, 0x0FA0) := by decide
/-- CF18, CF17. -/
theorem test_ret_edges : fl (run 0x00EE (State.reset.setSp 0xFFF)) = some (.memoryOutOfRange 0x1000) ∧
    rd (fun s => (s.pc, s.sp)) (run 0x00EE (State.reset.setSp 0)) = some (0x0000, 0xFFFE) := by decide
/-- CF1. -/
theorem test_jp : rd (fun s => (s.pc, s.sp)) (run 0x1ABC State.reset) = some (0x0ABC, 0x0FA0) := by decide
/-- CF2. -/
theorem test_call : rd (fun s => (s.pc, s.sp, s.byteAt 0xFA2, s.byteAt 0xFA3)) (run 0x2ABC State.reset) =
    some (0x0ABC, 0x0FA2, 0x02, 0x02) := by decide
/-- CF19, CF20. -/
theorem test_call_edges : fl (run 0x2300 (State.reset.setSp 0xFFD)) = some (.memoryOutOfRange 0x1000) ∧
    fl (run 0x2300 (State.reset.setSp 0xFFE)) = some (.memoryOutOfRange 0x1000) := by decide
/-- CF6. -/
theorem test_jpV0 : rd State.pc (run 0xBFFF (regs [(0, 0xFF)] State.reset)) = some 0x10FE := by decide
/-- CF7, CF8. -/
theorem test_seImm : rd State.pc (run 0x3A05 (regs [(0xA, 5)] State.reset)) = some 0x204 ∧
    rd State.pc (run 0x3A05 (regs [(0xA, 6)] State.reset)) = some 0x202 := by decide
/-- CF9, CF10. -/
theorem test_sneImm : rd State.pc (run 0x4A05 (regs [(0xA, 5)] State.reset)) = some 0x202 ∧
    rd State.pc (run 0x4A05 (regs [(0xA, 6)] State.reset)) = some 0x204 := by decide
/-- CF11, CF12. -/
theorem test_seReg : rd State.pc (run 0x5120 (v12 7 7)) = some 0x204 ∧
    rd State.pc (run 0x5120 (v12 7 8)) = some 0x202 := by decide
/-- CF13, CF14. -/
theorem test_sneReg : rd State.pc (run 0x9120 (v12 7 7)) = some 0x202 ∧
    rd State.pc (run 0x9120 (v12 7 8)) = some 0x204 := by decide

/-- FE2, FE3, and E59E at 0x0FFF of section 9: the fetch fault comes first. -/
theorem test_fetch_edges :
    fl (step (State.reset.setPc 0x0FFF)) = some (.memoryOutOfRange 0x1000) ∧
    fl (step (State.reset.setPc 0x10FE)) = some (.memoryOutOfRange 0x10FE) := by decide
/-- FE1: the last address a word can be fetched from. -/
theorem test_fetch_last : rd State.pc (step ((bytes 0xFFE [0x12, 0x00] State.reset).setPc 0xFFE)) = some 0x200 := by
  decide
/-- FE6: an odd address. -/
theorem test_fetch_odd : rd (fun s => (s.pc, s.reg 0xA))
    (step ((bytes 0x203 [0x6A, 0x05] State.reset).setPc 0x203)) = some (0x205, 0x05) := by decide

/-! ### Registers and ALU (section 4) -/

theorem test_ldImm : rd (fun s => s.reg 0xA) (run 0x6A05 State.reset) = some 0x05 ∧
    rd (fun s => s.reg vF) (run 0x6F77 State.reset) = some 0x77 := by decide
theorem test_addImm : rd (fun s => (s.reg 3, s.reg vF)) (run 0x7301 (regs [(3, 0xFF), (15, 1)] State.reset)) =
    some (0x00, 0x01) := by decide
theorem test_ldReg : rd v1f (run 0x8120 (v12 0x11 0x7E)) = some (0x7E, 1) := by decide
theorem test_orReg : rd v1f (run 0x8121 (v12 0x0F 0xF0)) = some (0xFF, 0) := by decide
theorem test_andReg : rd v1f (run 0x8122 (v12 0x3C 0x0F)) = some (0x0C, 0) := by decide
theorem test_xorReg : rd v1f (run 0x8123 (v12 0xFF 0x0F)) = some (0xF0, 0) := by decide
theorem test_addReg : rd v1f (run 0x8124 (v12 0xFF 0x01)) = some (0x00, 1) ∧
    rd v1f (run 0x8124 (v12 0x01 0xFE)) = some (0xFF, 0) := by decide
/-- 8F14: the flag wins; 81F4: the old VF is the operand. -/
theorem test_addReg_vF :
    rd (fun s => s.reg vF) (run 0x8F14 (regs [(15, 0xFF), (1, 1)] State.reset)) = some 1 ∧
    rd v1f (run 0x81F4 (regs [(1, 0xFF), (15, 1)] State.reset)) = some (0x00, 1) := by decide
theorem test_subReg : rd v1f (run 0x8125 (v12 0x01 0x02)) = some (0xFF, 0) ∧
    rd v1f (run 0x8125 (v12 0x07 0x07)) = some (0x00, 1) := by decide
theorem test_shrReg : rd v1f (run 0x8126 (v12 0x05 0x08)) = some (0x02, 1) := by decide
theorem test_shrReg_vy :
    rd (fun s => (s.reg 1, s.reg 15, s.reg 2)) (run 0x8126 { v12 0x05 0x08 with shiftSrc := .vy }) =
      some (0x04, 0, 0x08) := by decide
theorem test_subnReg : rd v1f (run 0x8127 (v12 0x02 0x01)) = some (0xFF, 0) ∧
    rd v1f (run 0x8127 (v12 0x01 0x03)) = some (0x02, 1) := by decide
theorem test_shlReg : rd v1f (run 0x812E (v12 0x81 0x40)) = some (0x02, 1) := by decide
theorem test_shlReg_vy : rd v1f (run 0x812E { v12 0x40 0x80 with shiftSrc := .vy }) = some (0x00, 1) := by decide
/-- C30F with `rnd_in = FF`, and with A7 (R102). -/
theorem test_rnd : (randomInto 0xFF 3 0x0F State.reset).reg 3 = 0x0F ∧
    (randomInto 0xA7 3 0x0F State.reset).reg 3 = 0x07 := by decide
/-- C300: the byte does not matter; one byte is used. -/
theorem test_rnd_step : rd (fun s => (s.pc, s.draws)) (run 0xC300 State.reset) = some (0x202, 1) := by decide

/-! ### Index and memory (section 5) -/

theorem test_ldI : rd State.i (run 0xAFFF State.reset) = some 0x0FFF := by decide
theorem test_addI : rd (fun s => (s.i, s.reg vF)) (run 0xF51E ((regs [(5, 0x02)] State.reset).setI 0x0FFE)) =
    some (0x1000, 1) := by decide
theorem test_addI_wraps :
    rd (fun s => (s.i, s.reg vF)) (run 0xF51E ((regs [(5, 0x01), (15, 1)] State.reset).setI 0xFFFF)) =
      some (0x0000, 0) := by decide
theorem test_ldF : rd State.i (run 0xF529 (regs [(5, 0x0F)] State.reset)) = some 0x004B ∧
    rd State.i (run 0xF529 (regs [(5, 0xFF)] State.reset)) = some 0x04FB := by decide
/-- M1: 234 at the last position that fits. -/
theorem test_ldB :
    rd (fun s => (s.byteAt 0xFFD, s.byteAt 0xFFE, s.byteAt 0xFFF, s.i))
      (run 0xF033 ((regs [(0, 0xEA)] State.reset).setI 0x0FFD)) = some (2, 3, 4, 0x0FFD) := by decide
/-- M2, M4. -/
theorem test_ldB_edges : fl (run 0xF033 (State.reset.setI 0x0FFE)) = some (.memoryOutOfRange 0x1000) ∧
    fl (run 0xF033 (State.reset.setI 0x1000)) = some (.memoryOutOfRange 0x1000) := by decide
/-- M10. -/
theorem test_storeRegs :
    rd (fun s => (s.byteAt 0x400, s.byteAt 0x401, s.byteAt 0x402, s.byteAt 0x403, s.i))
      (run 0xF255 ((regs [(0, 1), (1, 2), (2, 3), (3, 4)] State.reset).setI 0x400)) =
      some (1, 2, 3, 0, 0x400) := by decide
/-- M5, M6: sixteen bytes just fit. -/
theorem test_storeRegs_edges :
    rd (fun s => s.byteAt 0xFFF) (run 0xFF55 ((regs [(15, 9)] State.reset).setI 0x0FF0)) = some 9 ∧
    fl (run 0xFF55 (State.reset.setI 0x0FF1)) = some (.memoryOutOfRange 0x1000) := by decide
/-- M11. -/
theorem test_loadRegs :
    rd (fun s => (s.reg 0, s.reg 1, s.reg 2, s.reg 3, s.i))
      (run 0xF265 ((bytes 0x400 [0xAA, 0xBB, 0xCC, 0xDD] (regs [(3, 9)] State.reset)).setI 0x400)) =
      some (0xAA, 0xBB, 0xCC, 0x09, 0x400) := by decide
/-- M8, M9. -/
theorem test_loadRegs_edges : fl (run 0xF065 (State.reset.setI 0x1000)) = some (.memoryOutOfRange 0x1000) ∧
    fl (run 0xF165 (State.reset.setI 0x0FFF)) = some (.memoryOutOfRange 0x1000) := by decide

/-! ### Display (section 6) -/

/-- D14. -/
theorem test_cls :
    rd (fun s => (litRow 5 s, s.reg vF))
      (run 0x00E0 ((regs [(15, 1)] State.reset).setFb (State.reset.fb.toggle 5 5))) = some ([], 1) := by decide
/-- D5: (2,0) is lit, the row byte A0 turns it off and (0,0) on. -/
theorem test_drw_collides :
    rd (fun s => (litRow 0 s, s.reg vF))
      (run 0xD011 (((bytes 0x300 [0xA0] State.reset).setFb (State.reset.fb.toggle 2 0)).setI 0x300)) =
      some ([0], 1) := by decide
/-- D13: column 255 + 7 and row 255 wrap. -/
theorem test_drw_wraps :
    rd (fun s => (litRow 31 s, s.reg vF))
      (run 0xD011 ((bytes 0x300 [0x01] (regs [(0, 0xFF), (1, 0xFF)] State.reset)).setI 0x300)) =
      some ([6], 0) := by decide

/-! ### Keys and timers (sections 7 and 8) -/

/-- K1, K5. -/
theorem test_skp : rd State.pc (run 0xE59E ((regs [(5, 3)] State.reset).setKey 3 true)) = some 0x204 ∧
    fl (run 0xE59E (regs [(5, 0x10)] State.reset)) = some (.keyIndexOutOfRange 0x10) := by decide
/-- K3, K4: the standard sense. -/
theorem test_sknp : rd State.pc (run 0xE5A1 ((regs [(5, 3)] State.reset).setKey 3 true)) = some 0x202 ∧
    rd State.pc (run 0xE5A1 (regs [(5, 3)] State.reset)) = some 0x204 := by decide
/-- K9. -/
theorem test_ldVxK : rd (fun s => (s.reg 7, s.pc))
    (run 0xF70A (((State.reset.setKey 4 true).setKey 9 true).setKey 12 true)) = some (4, 0x202) := by decide
/-- K12. -/
theorem test_ldVxK_waits : rd (fun s => (s.reg 7, s.pc)) (run 0xF70A State.reset) = some (0, 0x200) := by decide
theorem test_ldVxDt : rd (fun s => (s.reg 3, s.dt)) (run 0xF307 (State.reset.setDt 0x2A)) = some (0x2A, 0x2A) := by
  decide
theorem test_ldDtVx : rd (fun s => (s.dt, s.st)) (run 0xF315 (regs [(3, 0x3C)] State.reset)) = some (0x3C, 0) := by
  decide
theorem test_ldStVx : rd (fun s => (s.dt, s.st, s.soundActive)) (run 0xF418 (regs [(4, 5)] State.reset)) =
    some (0, 5, true) := by decide

/-! ### Host events (sections 5.4, 7, 8, 9) -/

theorem test_tickTimers :
    rd (fun s => (s.dt, s.st, s.soundActive)) (hostEvent .tickTimers ((State.reset.setDt 0x04).setSt 0x03)) =
      some (3, 2, false) ∧
    rd (fun s => (s.dt, s.st)) (hostEvent .tickTimers State.reset) = some (0, 0) := by decide
theorem test_pressKey : rd (fun s => (s.key 3, s.key 4)) (hostEvent (.pressKey 3 true) State.reset) =
    some (true, false) := by decide
/-- E2, and the `load` vectors at the end of memory. -/
theorem test_load :
    rd (fun s => (s.byteAt 0x1FF, s.byteAt 0x200, s.byteAt 0x203, s.byteAt 0x204))
      (hostEvent (.load [0x6A, 0x05, 0xFA, 0x1E] 0x200) State.reset) = some (0, 0x6A, 0x1E, 0) ∧
    rd (fun s => s.byteAt 0xFFF) (hostEvent (.load [0x07] 0xFFF) State.reset) = some 7 ∧
    fl (hostEvent (.load [0x07] 0x1000) State.reset) = some (.loadOutOfRange 0x1001) := by decide
/-- D22: no effect after the first `tick`. -/
theorem test_load_late : rd (fun s => s.byteAt 0x300) (hostEvent (.load [0x07] 0x300) State.reset.start) = some 0 := by
  decide
theorem test_reset :
    rd (fun s => (s.fault, s.pc, s.reg 1, s.byteAt 0x300, s.run))
      (hostEvent .reset (((bytes 0x300 [1] (v12 1 1)).start.setPc 7).latch (.invalidOpcode 0))) =
      some (none, 0x200, 0, 0, false) := by decide
/-- "`reset`, then `tick` with nothing loaded". -/
theorem test_bare_reset : fl (step State.reset) = some (.invalidOpcode 0x0000) := by decide

/-! ### Witnesses: no hypothesis is empty

Each theorem names the obligation whose hypotheses, clause by clause, it meets; the values are at the
boundary of each clause. -/

/-- ByteReadInRangeOrFault, ByteWriteChangesOneCell: both clauses, at 0xFFF and 0x1000. -/
theorem test_witness_byte_access : (0xFFF : Nat) ≤ 0xFFF ∧ 0xFFF < 0x1000 ∧
    (memRead1 State.reset 0xFFF).toOption = some 0 ∧ (memRead1 State.reset 0x1000).toOption = none ∧
    (memWrite1 State.reset 0xFFF 1).toOption.isSome = true ∧ (memWrite1 State.reset 0x1000 1).toOption = none := by
  decide
/-- PairReadIsBigEndian: the three clauses, at 0xFFE, 0xFFF and 0x1000. -/
theorem test_witness_pair_access : 0xFFE + 1 ≤ 0xFFF ∧
    (memRead2 (bytes 0xFFE [0xAB, 0xCD] State.reset) 0xFFE).toOption = some 0xABCD ∧
    (memRead2 State.reset 0xFFF).toOption = none ∧ (memRead2 State.reset 0x1000).toOption = none := by decide
/-- PairWriteRoundTrips: E1, and the three clauses at 0xFFE, 0xFFF and 0x1000. -/
theorem test_witness_pair_write :
    ((memWrite2 State.reset 0x300 0xABCD).toOption.map (fun s => (s.byteAt 0x300, s.byteAt 0x301))) =
      some (0xAB, 0xCD) ∧
    (memWrite2 State.reset 0xFFE 0xABCD).toOption.isSome = true ∧
    (memWrite2 State.reset 0xFFF 0xABCD).toOption = none ∧
    (memWrite2 State.reset 0x1000 0xABCD).toOption = none := by decide
theorem test_witness_StoredWordIsFetched : (0xFFE : Word).toNat ≤ 0xFFE := by decide
/-- One state for each clause, and for each of the two values of the edge. -/
theorem test_witness_AccessLeavingMemoryFaults :
    (0xFFE < (State.reset.setPc 0xFFF).pc.toNat ∧ faultEdge 0xFFF = 0x1000) ∧
    (0xFFE < (State.reset.setSp 0x1001).sp.toNat ∧ faultEdge 0x1001 = 0x1001) ∧
    0xFFE < ((State.reset.setSp 0xFFD).sp + 2).toNat ∧
    (1 ≤ (3 : RowCount).val ∧ 0xFFF < (State.reset.setI 0xFFE).i.toNat + (3 : RowCount).val - 1) ∧
    0xFFF < (State.reset.setI 0xFFE).i.toNat + 2 ∧
    0xFFF < (State.reset.setI 0xFFF).i.toNat + (1 : Reg).val := by decide
/-- AccessLeavingMemoryFaults, the clause for `DRW`: M14, M15. -/
theorem test_witness_drw_edges :
    fl (exec (.drw 0 1 3) (State.reset.setI 0xFFE)) = some (.memoryOutOfRange 0x1000) ∧
    rd (fun s => s.reg vF) (exec (.drw 0 1 0) (State.reset.setI 0xFFFF)) = some 0 := by decide
theorem test_witness_DecodeInvertsEncode : (Instr.drw 1 2 5).wellFormed = true := by decide
theorem test_witness_EncodeInvertsDecode : decodeTableWord 16 0x8F1E = some (.shlReg 15 1) := by decide
/-- Each row of the table of invalid words, and one word that is in none. -/
theorem test_witness_InvalidWords : (invalid 0x5001).isSome ∧ (invalid 0x800D).isSome ∧ (invalid 0x900F).isSome ∧
    (invalid 0xE0A0).isSome ∧ (invalid 0xF066).isSome ∧ (invalid 0xF065).isNone ∧
    decodeTableWord 16 0x00E1 = some (.sys 0x0E1) := by decide
/-- The four clauses: faulted; not fetchable; invalid; decoded. -/
theorem test_witness_TickFetchesDecodesExecutes :
    (State.reset.latch (.invalidOpcode 0)).fault = some (.invalidOpcode 0) ∧
    (State.reset.fault = none ∧ 0xFFE < (State.reset.setPc 0xFFF).pc.toNat) ∧
    ((State.reset.withFetchWord 16 0x5121).pc.toNat ≤ 0xFFE ∧
      invalid (State.reset.withFetchWord 16 0x5121).fetched = some .skipEqual) ∧
    fl (tick (State.reset.withFetchWord 16 0x5121)) = some (.invalidOpcode 0x5121) := by decide
/-- TickFetchesDecodesExecutes, the last clause. -/
theorem test_witness_Executes : Executes (State.reset.withFetchWord 16 0x1ABC) (.jp 0xABC) := by
  exact ⟨by decide, rfl⟩
/-- Both forms of the queue. -/
theorem test_witness_StepRunsTheDecodedInstruction :
    (State.reset.fault = none ∧ State.reset.pc.toNat ≤ 0xFFE ∧ (Instr.jp 0xABC).wellFormed = true ∧
      State.reset.host = [] ∧ (State.reset.setHost [.tick, .tickTimers]).host = [.tick, .tickTimers]) ∧
    rd State.pc (step (State.reset.withFetchWord 16 0x1ABC)) = some 0xABC ∧
    rd (fun s => (s.pc, s.host)) (step ((State.reset.setHost [.tickTimers]).withFetchWord 16 0x1ABC)) =
      some (0xABC, [.tickTimers]) := by decide
/-- A queued event is the step. -/
theorem test_witness_StepIssuesTheQueuedEvent :
    rd (fun s => (s.key 3, s.pc, s.host)) (step (State.reset.setHost [.pressKey 3 true])) =
      some (true, 0x200, []) := by decide
theorem test_witness_RetPopsThePc : (State.reset.setSp 0xFFE).sp.toNat ≤ 0xFFE ∧
    rd State.sp (exec .ret (State.reset.setSp 0xFFE)) = some 0xFFC := by decide
theorem test_witness_JpSetsThePc : rd State.pc (exec (.jp 0xFFF) State.reset) = some 0xFFF ∧
    State.reset.fault = none ∧ fl (tick (State.reset.setPc 0xFFF)) = some (.memoryOutOfRange 0x1000) := by decide
/-- The last clause: `1200` at 0x200. -/
theorem test_witness_JpToItself :
    (State.reset.withFetchWord 16 0x1200).start.fault = none ∧
    (State.reset.withFetchWord 16 0x1200).start.run = true ∧
    Executes (State.reset.withFetchWord 16 0x1200).start (.jp 0x200) ∧
    (State.reset.withFetchWord 16 0x1200).start.pc.toNat = (0x200 : Addr12).toNat := by
  exact ⟨by decide, by decide, ⟨by decide, rfl⟩, by decide⟩
/-- CallPushesAndJumps, RetUndoesCall: the 47th nested call of P6 still fits. -/
theorem test_witness_CallPushesAndJumps : (State.reset.setSp 0xFFC).pushAddr.toNat ≤ 0xFFE ∧
    rd (fun s => (s.pc, s.sp)) (exec (.call 0x200) (State.reset.setSp 0xFFC)) = some (0x200, 0xFFE) := by decide
/-- The clauses "x other than VF" and "bit below 8" of LogicResetsTheFlag and the other flag statements. -/
theorem test_witness_flag_clauses : (1 : Reg) ≠ vF ∧ (0 : Nat) < 8 := by decide
/-- Both values of `SHIFT_SRC`. -/
theorem test_witness_ShiftsSetTheBitShiftedOut :
    (v12 5 8).shiftSrc = .vx ∧ ({ v12 5 8 with shiftSrc := .vy } : State).shiftSrc = .vy := by decide
/-- LdBStoresTheDigits, StoreRegsCopiesOut, LoadRegsCopiesIn: the last address that fits. -/
theorem test_witness_ldB : (State.reset.setI 0xFFD).dataAddr + 2 ≤ 0xFFF := by decide
theorem test_witness_storeRegs : (State.reset.setI 0xFF0).dataAddr + (15 : Reg).val ≤ 0xFFF := by decide
theorem test_witness_loadRegs : (State.reset.setI 0xFF0).i.toNat + (15 : Reg).val ≤ 0xFFF := by decide
/-- Both alternatives of the premise, a covered cell that is lit and one that is not. -/
theorem test_witness_DrawIsOneExclusiveOr :
    ((0 : RowCount).val = 0 ∧ (State.reset.setI 0xFFF).i.toNat + (1 : RowCount).val - 1 ≤ 0xFFF) ∧
    SpriteCovers ((bytes 0x300 [0xA0] State.reset).setI 0x300) 0 0 1 2 0 ∧
    State.reset.pixel 2 0 = false ∧ (State.reset.setFb (State.reset.fb.toggle 2 0)).pixel 2 0 = true := by
  exact ⟨by decide, ⟨0, 2, by decide, by decide, by decide, by decide, by decide⟩, by decide, by decide⟩
/-- A cell the sprite does not cover. -/
theorem test_witness_not_covered : ¬ SpriteCovers State.reset 0 0 0 2 0 := by
  rintro ⟨r, c, hr, -⟩
  exact absurd hr (Nat.not_lt_zero r)
theorem test_witness_DrawTwice : (List.replicate 15 (0xFF : Byte)).length ≤ 15 := by decide
/-- KeySkipsTestTheLatch at 15, KeySkipsFaultAboveFifteen at 16. -/
theorem test_witness_KeySkips :
    ((regs [(5, 15)] State.reset).reg 5).toNat = (15 : Key).val ∧
    15 < ((regs [(5, 16)] State.reset).reg 5).toNat := by decide
/-- The lowest key held is 4; and no key is held at reset. -/
theorem test_witness_KeyWait :
    (((State.reset.setKey 4 true).setKey 9 true).key 4 = true ∧
      ∀ j < (4 : Key), ((State.reset.setKey 4 true).setKey 9 true).key j = false) ∧
    ∀ k : Key, State.reset.key k = false := by decide
theorem test_witness_KeyWaitTickChangesNothing :
    (State.reset.withFetchWord 16 0xF30A).start.fault = none ∧
    (State.reset.withFetchWord 16 0xF30A).start.run = true ∧
    Executes (State.reset.withFetchWord 16 0xF30A).start (.ldVxK 3) ∧
    ∀ k : Key, (State.reset.withFetchWord 16 0xF30A).start.key k = false := by
  exact ⟨by decide, by decide, ⟨by decide, rfl⟩, by decide⟩
/-- TickTimersCountsDown, PressKeyWritesOneEntry: the latch clear, and set. -/
theorem test_witness_events : State.reset.fault = none ∧
    (State.reset.latch (.keyIndexOutOfRange 16)).fault = some (.keyIndexOutOfRange 16) := by decide
theorem test_witness_DelayTimerOnlyFalls : HostEvent.tickTimers ≠ .reset ∧
    rd State.dt (hostEvent .tickTimers (State.reset.setDt 1)) = some 0 := by decide
/-- LoadCopiesBeforeTheFirstTick: 3584 bytes fit at 0x200 and 3585 do not; and the state of each clause. -/
theorem test_witness_Load : State.reset.fault = none ∧ State.reset.run = false ∧
    (0x200 : Word).toNat + 3584 ≤ 4096 ∧ 4096 < (0x200 : Word).toNat + 3585 ∧
    State.reset.start.run = true := by decide
/-- StartUpLoadsFontAndRom: the lengths of its clauses, and what the first load of an empty image leaves. -/
theorem test_witness_StartUp : ([] : List Byte).length ≤ 3584 ∧
    rd (fun s => (s.byteAt 0x00F, s.byteAt 0x04F, s.byteAt 0x050, s.host.length)) (step (State.startUp .vy [])) =
      some (0xF0, 0x80, 0x00, 1) := by decide
theorem test_witness_StartUp_long : 3584 < (List.replicate 3585 (0x00 : Byte)).length := by
  rw [List.length_replicate]
  decide
/-- ResetStateHasTheTableValues: both alternatives. -/
theorem test_witness_ResetState : (State.reset = State.reset ∨ ∃ src, State.reset = State.resetFor src) ∧
    ∃ src, State.resetFor .vy = State.resetFor src := ⟨Or.inl rfl, .vy, rfl⟩
/-- FaultedMachineWaitsForReset. -/
theorem test_witness_Faulted : State.reset.fault = none ∧ HostEvent.tick ≠ .reset ∧
    (State.reset.latch (.invalidOpcode 0)).fault = some (.invalidOpcode 0) := by decide
/-- Every fault but code 3, which nothing raises, is raised by some step. -/
theorem test_witness_FaultsAreTheListedCauses :
    fl (run 0xF1FF State.reset) = some (.invalidOpcode 0xF1FF) ∧
    fl (step (State.reset.setPc 0xFFF)) = some (.memoryOutOfRange 0x1000) ∧
    fl (run 0xE5A1 (regs [(5, 0xFF)] State.reset)) = some (.keyIndexOutOfRange 0xFF) ∧
    fl (step (State.reset.setHost [.load [0x07] 0x1000])) = some (.loadOutOfRange 0x1001) := by decide
/-- The invariant at a state with a step: reset, then a key pressed. -/
theorem test_witness_EveryStepKeepsTheInvariant : State.reset.Inv ∧
    rd (fun s => s.key 3) (step (State.reset.setHost [.pressKey 3 true])) = some true := by
  refine ⟨⟨rfl, rfl, rfl, fun _ => ⟨by decide, rfl, rfl, rfl, rfl, rfl, ?_⟩⟩, by decide⟩
  intro px py
  exact Framebuffer.cell_clear px py
/-- Each clause of the ownership table with its change. -/
theorem test_witness_StateIsChangedByItsOwnersOnly :
    rd State.st (hostEvent .tickTimers (State.reset.setSt 1)) = some 0 ∧
    rd State.dt (tick (State.reset.withFetchWord 16 0xF315)) = some 0 ∧
    rd (fun s => s.byteAt 0xFA3) (tick (State.reset.withFetchWord 16 0x2ABC)) = some 0x02 ∧
    rd (fun s => s.pixel 0 0) (tick ((bytes 0x300 [0x80] (State.reset.withFetchWord 16 0xD011)).setI 0x300)) =
      some true ∧
    fl (tick State.reset) = some (.invalidOpcode 0) := by decide
theorem test_witness_NamedInstructions : rd State.i (exec (.ldF 5) (regs [(5, 1)] State.reset)) = some 5 ∧
    rd State.sp (exec (.call 0x300) State.reset) = some 0xFA2 ∧
    rd (fun s => s.reg vF) (exec (.addReg 1 2) (v12 0 0)) = some 0 := by decide
theorem test_witness_OnlyRndReadsTheFreeByte : ∀ x kk, Instr.cls ≠ .rnd x kk := by
  intro x kk h
  cases h
theorem test_witness_EndedProgramStandsStill :
    EndedAt 0x200 (State.reset.withFetchWord 16 0x1200).start ∧
    (State.reset.withFetchWord 16 0x1200).start.run = true := by
  exact ⟨⟨by decide, by decide, by decide, by decide⟩, by decide⟩

end Sys2Proof.Tests
end

section
/-!
The state at reset and the invariant of the machine (10_state.md R24, R25; 20_memory.md R38): the values of the
reset state, what each host event answers while no fault is latched, what an instruction can do to memory and to
`SP`, and from these that every step keeps `State.Inv`.
-/

namespace Sys2Proof.Machine

/-! ### The reset state, read through the accessors (10_state.md R24) -/

@[simp] theorem State.reg_resetFor (src : Config.ShiftSrc) (r : Reg) : (State.resetFor src).reg r = 0 :=
  Vector.getElem_replicate r.isLt

@[simp] theorem State.key_resetFor (src : Config.ShiftSrc) (k : Key) : (State.resetFor src).key k = false :=
  Vector.getElem_replicate k.isLt

@[simp] theorem State.byteAt_resetFor (src : Config.ShiftSrc) (a : Nat) : (State.resetFor src).byteAt a = 0 :=
  rfl

@[simp] theorem State.pixel_resetFor (src : Config.ShiftSrc) (px : Column) (py : Line) :
    (State.resetFor src).pixel px py = false := Framebuffer.cell_clear px py

@[simp] theorem State.soundActive_resetFor (src : Config.ShiftSrc) :
    (State.resetFor src).soundActive = false := rfl

/-- Settles O50: `State.reset` is the case `VX` of `State.resetFor`, whose accessors are known. -/
theorem resetStateHasTheTableValues : Obligations.ResetStateHasTheTableValues := by
  intro s hs
  obtain ⟨src, rfl⟩ : ∃ src, s = State.resetFor src := hs.elim (fun h => ⟨.vx, h⟩) id
  simp

/-! ### What the host events answer while no fault is latched -/

/-- A run of stores that does not fault ends in range and changes memory only. -/
theorem finish_writeBytes_next {s t : State} {a : Nat} {bs : List Byte}
    (h : finish (writeBytes s a bs) = .next t) :
    (bs = [] ∨ a + bs.length ≤ 4096) ∧ t = s.setMem (s.mem.writeAll a bs) := by
  rw [writeBytes_eq] at h
  split_ifs at h with hfit
  · cases h
    exact ⟨hfit, rfl⟩
  · cases h

/-- What `load` answers (20_memory.md R36): nothing changes once the machine runs, the bytes are stored before. -/
theorem loadEvent_next {s t : State} {bytes : List Byte} {offset : Word} (hf : s.fault = none)
    (h : loadEvent bytes offset s = .next t) :
    (s.run = true ∧ t = s) ∨
      (s.run = false ∧ (bytes = [] ∨ offset.toNat + bytes.length ≤ 4096) ∧
        t = s.setMem (s.mem.writeAll offset.toNat bytes)) := by
  rw [loadEvent, unlessFaulted_none hf] at h
  split_ifs at h with hrun
  · cases h
    exact .inl ⟨hrun, rfl⟩
  · unfold loadBytes at h
    split_ifs at h
    · cases h
    · exact .inr ⟨Bool.not_eq_true _ ▸ hrun, finish_writeBytes_next h⟩

/-- What `tick` answers (30_encoding.md R62): the state after the fetched instruction's execute phase. -/
theorem tick_next {s t : State} (hf : s.fault = none) (h : tick s = .next t) :
    ∃ i, Executes s i ∧ exec i (s.start.setPc (s.pc + 2)) = .next t := by
  rw [tick_of_running hf] at h
  split_ifs at h with hpc
  unfold decodeAndExecute at h
  split at h
  · cases h
  · rename_i i hi
    exact ⟨i, ⟨by omega, hi⟩, h⟩

/-! ### What an instruction can do to the stack and to memory -/

theorem exec_ret_next {s t : State} (h : exec .ret s = .next t) :
    ∃ w, t = (s.setSp (s.sp - 2)).setPc w := by
  simp only [exec, execRet, pop_eq] at h
  split_ifs at h
  · cases h
    exact ⟨_, rfl⟩
  · cases h

theorem exec_call_next {nnn : Addr12} {s t : State} (h : exec (.call nnn) s = .next t) :
    s.pushAddr.toNat + 1 < 4096 ∧
      t = ((s.setSp s.pushAddr).setMem (s.mem.write2 s.pushAddr.toNat s.pc)).setPc (addrWord nnn) := by
  simp only [exec, execCall, push_eq] at h
  split_ifs at h with hfit
  · cases h
    exact ⟨hfit, rfl⟩
  · cases h

/-- `SP` moves by the two bytes of a return address or not at all (10_state.md R14). -/
theorem exec_sp {i : Instr} {s t : State} (h : exec i s = .next t) :
    t.sp = s.sp ∨ t.sp = s.sp + 2 ∨ t.sp = s.sp - 2 := by
  by_cases hsp : Piece.sp ∈ Instr.piecesWritten i
  · cases i with
    | ret =>
      obtain ⟨w, rfl⟩ := exec_ret_next h
      exact .inr (.inr rfl)
    | call nnn =>
      obtain ⟨-, rfl⟩ := exec_call_next h
      exact .inr (.inl rfl)
    | _ => simp [Instr.piecesWritten] at hsp
  · obtain ⟨-, -, -, hkept, -⟩ := exec_frame h
    exact .inl (hkept hsp)

theorem skipByKey_next {test : Bool → Bool} {x : Reg} {s t : State} (h : skipByKey test x s = .next t) :
    ∃ c, t = skipIf c s := by
  unfold skipByKey at h
  split at h
  · cases h
  · cases h
    exact ⟨_, rfl⟩

/-- The instructions that store to memory (20_memory.md R39). -/
def Instr.stores : Instr → Bool
  | .call _ | .ldB _ | .storeRegs _ => true
  | _ => false

/-- An instruction that is no store keeps the list of bytes itself, not only what it reads as. -/
theorem exec_mem_of_not_stores {i : Instr} {s t : State} (hi : Instr.stores i = false) (h : exec i s = .next t) :
    t.mem = s.mem := by
  cases i with
  | call nnn | ldB x | storeRegs x => cases hi
  | sys nnn => cases h
  | ret =>
    obtain ⟨w, rfl⟩ := exec_ret_next h
    rfl
  | seImm x kk | sneImm x kk | seReg x y | sneReg x y =>
    cases h
    simp [skipIf_eq]
  | skp x | sknp x =>
    simp only [exec, execSkp, execSknp] at h
    obtain ⟨c, rfl⟩ := skipByKey_next h
    simp [skipIf_eq]
  | ldVxK x | drw x y n =>
    simp only [exec, execLdVxK, execDrw] at h
    split at h <;> cases h <;> rfl
  | loadRegs x =>
    simp only [exec, execLoadRegs] at h
    split at h <;> cases h
    rename_i bs _
    obtain ⟨v, hv⟩ := State.setRegsFrom_eq s 0 bs
    rw [hv]
  | _ =>
    cases h
    rfl

/-- Every instruction keeps memory in canonical form: its stores are in range (20_memory.md R35). -/
theorem exec_mem_wf {i : Instr} {s t : State} (hm : s.mem.wf = true) (h : exec i s = .next t) :
    t.mem.wf = true := by
  cases hi : Instr.stores i with
  | false => rwa [exec_mem_of_not_stores hi h]
  | true =>
    cases i with
    | call nnn =>
      obtain ⟨hfit, rfl⟩ := exec_call_next h
      exact Memory.wf_write2 hm hfit s.pc
    | ldB x | storeRegs x =>
      obtain ⟨hfit, rfl⟩ := finish_writeBytes_next h
      exact Memory.wf_writeAll hm hfit
    | _ => cases hi

/-! ### The invariant, event by event -/

/-- The invariant at reset; it does not speak of the draws and the queue, which the event `reset` leaves. -/
theorem State.inv_resetFor (src : Config.ShiftSrc) : (State.resetFor src).Inv := by
  refine ⟨State.resetFor_mem_wf src, rfl, by simp, fun _ => ?_⟩
  simp [Unstarted]

theorem State.Inv.setHost {s : State} (h : s.Inv) (l : List HostEvent) : (s.setHost l).Inv := h

theorem State.Inv.setKey {s : State} (h : s.Inv) (k : Key) (b : Bool) : (s.setKey k b).Inv := h

theorem State.Inv.setMem {s : State} (h : s.Inv) {m : Memory} (hm : m.wf = true) : (s.setMem m).Inv :=
  ⟨hm, h.2⟩

/-- A timer at 0 stays there, so a machine that has not started keeps both timers at 0 (60_exceptions.md R150). -/
theorem Unstarted.countDown {s : State} (h : Unstarted s) :
    Unstarted ((s.setDt (countDown s.dt)).setSt (countDown s.st)) := by
  obtain ⟨hreg, hi, hpc, hsp, hdt, hst, hpix⟩ := h
  exact ⟨hreg, hi, hpc, hsp, by simp [hdt, Machine.countDown], by simp [hst, Machine.countDown], hpix⟩

theorem State.Inv.countDown {s : State} (h : s.Inv) :
    ((s.setDt (countDown s.dt)).setSt (countDown s.st)).Inv := by
  obtain ⟨hm, hf, hsp, hun⟩ := h
  exact ⟨hm, hf, hsp, fun hrun => (hun hrun).countDown⟩

/-- Two bytes up or down, also around the end of the 16-bit range, keep an even address even. -/
theorem even_of_moves_by_two {a b : Word} (ha : a.toNat % 2 = 0) (h : b = a ∨ b = a + 2 ∨ b = a - 2) :
    b.toNat % 2 = 0 := by
  obtain rfl | rfl | rfl := h
  · exact ha
  · bv_omega
  · bv_omega

/-- After the fetch phase the machine runs, so what holds before the first `tick` is not asked of it. -/
theorem State.Inv.start_setPc {s : State} (h : s.Inv) (w : Word) : (s.start.setPc w).Inv := by
  obtain ⟨hm, hf, hsp, -⟩ := h
  exact ⟨hm, hf, hsp, fun hstopped => by simp at hstopped⟩

/-- The execute phase of a running machine keeps the invariant. -/
theorem State.Inv.exec {i : Instr} {s t : State} (h : s.Inv) (hrun : s.run = true)
    (hexec : exec i s = .next t) : t.Inv := by
  obtain ⟨hm, hf, hsp, -⟩ := h
  obtain ⟨-, -, -, -, -, -, -, -, -, -, hfault, hrun', -, -⟩ := exec_frame hexec
  exact ⟨exec_mem_wf hm hexec, hfault.trans hf, even_of_moves_by_two hsp (exec_sp hexec),
    fun hstopped => by simp [hrun', hrun] at hstopped⟩

theorem State.Inv.tick {s t : State} (h : s.Inv) (ht : tick s = .next t) : t.Inv := by
  have ⟨_, hf, _, _⟩ := h
  obtain ⟨i, -, hexec⟩ := tick_next hf ht
  exact (h.start_setPc (s.pc + 2)).exec rfl hexec

/-- Every host event keeps the invariant. -/
theorem State.Inv.hostEvent {e : HostEvent} {s t : State} (h : s.Inv) (ht : hostEvent e s = .next t) :
    t.Inv := by
  have ⟨hm, hf, _, _⟩ := h
  cases e with
  | reset =>
    cases ht
    exact State.inv_resetFor s.shiftSrc
  | load bytes offset =>
    obtain ⟨-, rfl⟩ | ⟨-, hfit, rfl⟩ := loadEvent_next hf ht
    · exact h
    · exact h.setMem (Memory.wf_writeAll hm hfit)
  | tick => exact h.tick ht
  | tickTimers =>
    simp only [Machine.hostEvent, tickTimersEvent, unlessFaulted_none hf] at ht
    cases ht
    exact h.countDown
  | pressKey index pressed =>
    simp only [Machine.hostEvent, pressKeyEvent, unlessFaulted_none hf] at ht
    cases ht
    exact h.setKey index pressed

/-- Settles O56: a step is the event at the head of the queue, or a `tick`, and every event keeps the
invariant. -/
theorem everyStepKeepsTheInvariant : Obligations.EveryStepKeepsTheInvariant := by
  intro s t h hstep
  cases hq : s.host with
  | nil =>
    rw [step_of_no_event hq] at hstep
    exact h.tick hstep
  | cons e rest =>
    rw [step_of_event hq] at hstep
    exact (h.setHost rest).hostEvent hstep

end Sys2Proof.Machine
end

section
/-!
The access primitives as 20_memory.md R31 to R34 state them: where one byte and two bytes are read and written,
what a write leaves, and which address a fault reports. Each statement follows from what its access can answer
(`memRead1_eq`, `memWrite1_eq`, `memRead2_eq`, `memWrite2_eq`).
-/

namespace Sys2Proof.Machine

/-- Other memory, and the machine is as before outside the bytes in which the two memories differ. -/
theorem frame_setMem {s : State} {m : Memory} {stored : Nat → Prop}
    (h : ∀ a, ¬ stored a → m.read a = s.byteAt a) : Frame noReg [] stored s (s.setMem m) := by
  simpa [Frame, State.byteAt_setMem] using h

/-! ### One byte (20_memory.md R31, R32) -/

/-- Settles O1, by the two branches of the bounds test. -/
theorem byteReadInRangeOrFault : Obligations.ByteReadInRangeOrFault := by
  intro s a
  rw [memRead1_eq]
  exact ⟨fun hin => if_pos (by omega), fun hout => if_neg (by omega)⟩

/-- Settles O2: in range the state differs from the one before in memory only, and there by one write. -/
theorem byteWriteChangesOneCell : Obligations.ByteWriteChangesOneCell := by
  intro s a b
  rw [memWrite1_eq]
  refine ⟨fun hin => ⟨s.setMem (s.mem.write a b), if_pos (by omega), ?_, frame_setMem fun j hj => ?_⟩,
    fun hout => if_neg (by omega)⟩
  · rw [State.byteAt_setMem, Memory.read_write, if_pos rfl]
  · rw [Memory.read_write, if_neg hj, State.byteAt]

/-! ### Two bytes (20_memory.md R33, R34, R37) -/

theorem memRead2_of_fits (s : State) {a : Nat} (h : a + 1 ≤ 0xFFF) :
    memRead2 s a = .ok (wordOfBytes (s.byteAt a) (s.byteAt (a + 1))) := by
  rw [memRead2_eq, if_pos (by omega)]

/-- The lowest address above 0xFFF of a pair that straddles the end of memory is 0x1000. -/
theorem pairFault_straddling : pairFault 0xFFF = some (.memoryOutOfRange 0x1000) := rfl

theorem pairFault_of_above {a : Nat} (h : 0xFFF < a) : pairFault a = some (.memoryOutOfRange a) := by
  rw [pairFault_eq, if_neg (by omega), Nat.max_eq_left (by omega)]

theorem memRead2_of_pairFault (s : State) {a : Nat} {f : Fault} (h : pairFault a = some f) :
    memRead2 s a = .error f := by
  rw [memRead2, h]

theorem memWrite2_of_pairFault (s : State) {a : Nat} (w : Word) {f : Fault} (h : pairFault a = some f) :
    memWrite2 s a w = .error f := by
  rw [memWrite2, h]

/-- The byte at the lower address after a 16-bit write is the high byte (R34). -/
theorem State.byteAt_write2_high (s : State) (a : Nat) (w : Word) :
    (s.setMem (s.mem.write2 a w)).byteAt a = w.extractLsb' 8 8 := by
  rw [State.byteAt_setMem, Memory.read_write2, if_neg (by omega), if_pos rfl]

/-- The byte at the higher address after a 16-bit write is the low byte (R34). -/
theorem State.byteAt_write2_low (s : State) (a : Nat) (w : Word) :
    (s.setMem (s.mem.write2 a w)).byteAt (a + 1) = w.extractLsb' 0 8 := by
  rw [State.byteAt_setMem, Memory.read_write2, if_pos rfl]

theorem frame_write2 (s : State) (a : Nat) (w : Word) :
    Frame noReg [] (fun b => b = a ∨ b = a + 1) s (s.setMem (s.mem.write2 a w)) :=
  frame_setMem fun j hj => by
    obtain ⟨hhigh, hlow⟩ := not_or.1 hj
    rw [Memory.read_write2, if_neg hlow, if_neg hhigh, State.byteAt]

theorem toNat_highByte (w : Word) : (w.extractLsb' 8 8).toNat = w.toNat / 256 := by
  rw [BitVec.extractLsb'_toNat, Nat.shiftRight_eq_div_pow]
  have := w.isLt
  omega

theorem toNat_lowByte (w : Word) : (w.extractLsb' 0 8).toNat = w.toNat % 256 := by
  rw [BitVec.extractLsb'_toNat, Nat.shiftRight_zero]

/-- A 16-bit write that fits reads back (R37). -/
theorem memRead2_write2 (s : State) {a : Nat} (w : Word) (h : a + 1 ≤ 0xFFF) :
    memRead2 (s.setMem (s.mem.write2 a w)) a = .ok w := by
  rw [memRead2_of_fits _ h, State.byteAt_write2_high, State.byteAt_write2_low, wordOfBytes_extract]

/-- Settles O3: a pair in range is joined high byte first, and any other faults as `pairFault` says. -/
theorem pairReadIsBigEndian : Obligations.PairReadIsBigEndian := by
  intro s a
  refine ⟨fun hfits => ⟨_, memRead2_of_fits s hfits, wordOfBytes_toNat _ _⟩, ?_,
    fun habove => memRead2_of_pairFault s (pairFault_of_above habove)⟩
  rintro rfl
  exact memRead2_of_pairFault s pairFault_straddling

/-- Settles O4: the write that fits changes two bytes, which join to the word again; any other faults with no
state. -/
theorem pairWriteRoundTrips : Obligations.PairWriteRoundTrips := by
  intro s a w
  refine ⟨fun hfits => ⟨s.setMem (s.mem.write2 a w), ?_, ?_, ?_, memRead2_write2 s w hfits,
    frame_write2 s a w⟩, ?_, fun habove => memWrite2_of_pairFault s w (pairFault_of_above habove)⟩
  · rw [memWrite2_eq, if_pos (by omega)]
  · rw [State.byteAt_write2_high, toNat_highByte]
  · rw [State.byteAt_write2_low, toNat_lowByte]
  · rintro rfl
    exact memWrite2_of_pairFault s w pairFault_straddling

end Sys2Proof.Machine
end

section
/-!
Decode and encode agree (30_encoding.md R51 to R55): what the decoder answers for an encoded word, group by
group, and the word and well-formedness of whatever a group of the decoder answers. The `SYS` space decodes
to the row of its own name (assumption log 7).
-/

namespace Sys2Proof

/-! ### The `SYS` space (30_encoding.md R55 row 1, R57) -/

theorem encodeA_injective (op : BitVec 4) : Function.Injective (encodeA op) :=
  Function.LeftInverse.injective (g := fieldNnn) (fieldNnn_encodeA op)

/-- The two addresses `SYS` leaves out are those whose words are `CLS` and `RET`. -/
theorem sysAddressOk_iff {nnn : Addr12} :
    sysAddressOk nnn = true ↔ encodeA 0x0 nnn ≠ encode .cls ∧ encodeA 0x0 nnn ≠ encode .ret := by
  have hcls : encode .cls = encodeA 0x0 0x0E0 := rfl
  have hret : encode .ret = encodeA 0x0 0x0EE := rfl
  rw [hcls, hret, (encodeA_injective 0x0).ne_iff, (encodeA_injective 0x0).ne_iff]
  simp [sysAddressOk]

theorem decodeZero_encodeA {nnn : Addr12} (h : sysAddressOk nnn = true) :
    decodeZero (encodeA 0x0 nnn) = .sys nnn := by
  obtain ⟨hcls, hret⟩ := sysAddressOk_iff.1 h
  exact (if_neg hcls).trans ((if_neg hret).trans (congrArg Instr.sys (fieldNnn_encodeA 0x0 nnn)))

/-! ### The decoder on an encoded word, for the groups with a further selector -/

theorem decodeWord_encodeXY_op8 (x y : Reg) (n : Fin 16) :
    decodeWord (encodeXY 0x8 x y n) = decodeAlu x y n.val := by
  rw [decodeWord_op8 (fieldOp_encodeXY ..), fieldX_encodeXY, fieldY_encodeXY, fieldN_encodeXY]

theorem decodeWord_encodeXK_opE (x : Reg) (kk : Byte) :
    decodeWord (encodeXK 0xE x kk) = decodeKey x kk := by
  rw [decodeWord_opE (fieldOp_encodeXK ..), fieldX_encodeXK, fieldKk_encodeXK]

theorem decodeWord_encodeXK_opF (x : Reg) (kk : Byte) :
    decodeWord (encodeXK 0xF x kk) = decodeMisc x kk := by
  rw [decodeWord_opF (fieldOp_encodeXK ..), fieldX_encodeXK, fieldKk_encodeXK]

/-- The decoder undoes the encoder: the opcode nibble picks the group, the group's selector the instruction,
and the operand fields are read back. -/
theorem decodeWord_encode {i : Instr} (hw : i.wellFormed = true) : decodeWord (encode i) = .ok i := by
  cases i with
  | sys nnn => rw [encode, decodeWord_op0 (fieldOp_encodeA ..), decodeZero_encodeA hw]
  | cls => rfl
  | ret => rfl
  | jp nnn => rw [encode, decodeWord_op1 (fieldOp_encodeA ..), fieldNnn_encodeA]
  | call nnn => rw [encode, decodeWord_op2 (fieldOp_encodeA ..), fieldNnn_encodeA]
  | ldI nnn => rw [encode, decodeWord_opA (fieldOp_encodeA ..), fieldNnn_encodeA]
  | jpV0 nnn => rw [encode, decodeWord_opB (fieldOp_encodeA ..), fieldNnn_encodeA]
  | seImm x kk => rw [encode, decodeWord_op3 (fieldOp_encodeXK ..), fieldX_encodeXK, fieldKk_encodeXK]
  | sneImm x kk => rw [encode, decodeWord_op4 (fieldOp_encodeXK ..), fieldX_encodeXK, fieldKk_encodeXK]
  | ldImm x kk => rw [encode, decodeWord_op6 (fieldOp_encodeXK ..), fieldX_encodeXK, fieldKk_encodeXK]
  | addImm x kk => rw [encode, decodeWord_op7 (fieldOp_encodeXK ..), fieldX_encodeXK, fieldKk_encodeXK]
  | rnd x kk => rw [encode, decodeWord_opC (fieldOp_encodeXK ..), fieldX_encodeXK, fieldKk_encodeXK]
  | seReg x y =>
    rw [encode, decodeWord_op5 (fieldOp_encodeXY ..), if_pos (fieldN_encodeXY ..), fieldX_encodeXY,
      fieldY_encodeXY]
  | sneReg x y =>
    rw [encode, decodeWord_op9 (fieldOp_encodeXY ..), if_pos (fieldN_encodeXY ..), fieldX_encodeXY,
      fieldY_encodeXY]
  | drw x y n =>
    rw [encode, decodeWord_opD (fieldOp_encodeXY ..), fieldX_encodeXY, fieldY_encodeXY, fieldN_encodeXY]
  | ldReg x y | orReg x y | andReg x y | xorReg x y | addReg x y | subReg x y | shrReg x y | subnReg x y
  | shlReg x y => exact decodeWord_encodeXY_op8 x y _
  | skp x | sknp x => exact decodeWord_encodeXK_opE x _
  | ldVxDt x | ldVxK x | ldDtVx x | ldStVx x | addI x | ldF x | ldB x | storeRegs x | loadRegs x =>
    exact decodeWord_encodeXK_opF x _

/-- Settles O7: `decodeWord_encode`, and the two bytes of a word join to the word. -/
theorem decodeInvertsEncode : Obligations.DecodeInvertsEncode := by
  intro i hw
  refine ⟨decodeWord_encode hw, _, _, rfl, ?_⟩
  rw [decodeBytes, Machine.wordOfBytes_extract, decodeWord_encode hw]

/-! ### The word of what a group of the decoder answers

In each branch that answers an instruction the group's selector is a known constant, the one the encoder
writes for that instruction. -/

theorem decodeZero_encodes {w : Word} (h : fieldOp w = 0x0) :
    encode (decodeZero w) = w ∧ (decodeZero w).wellFormed = true := by
  have hword : encodeA 0x0 (fieldNnn w) = w := encodeA_fields h
  unfold decodeZero
  split_ifs with hcls hret
  · exact ⟨hcls.symm, rfl⟩
  · exact ⟨hret.symm, rfl⟩
  · exact ⟨hword, sysAddressOk_iff.2 (by rw [hword]; exact ⟨hcls, hret⟩)⟩

theorem decodeAlu_encodes {x y : Reg} {n : Fin 16} {i : Instr} (h : decodeAlu x y n.val = .ok i) :
    encode i = encodeXY 0x8 x y n ∧ i.wellFormed = true := by
  fin_cases n <;> cases h <;> exact ⟨rfl, rfl⟩

theorem decodeKey_encodes {x : Reg} {kk : Byte} {i : Instr} (h : decodeKey x kk = .ok i) :
    encode i = encodeXK 0xE x kk ∧ i.wellFormed = true := by
  unfold decodeKey at h
  split_ifs at h <;> cases h <;> subst_vars <;> exact ⟨rfl, rfl⟩

theorem decodeMisc_encodes {x : Reg} {kk : Byte} {i : Instr} (h : decodeMisc x kk = .ok i) :
    encode i = encodeXK 0xF x kk ∧ i.wellFormed = true := by
  unfold decodeMisc at h
  split_ifs at h <;> cases h <;> subst_vars <;> exact ⟨rfl, rfl⟩

/-- `5xy0` and `9xy0`: the last nibble is fixed at 0. -/
theorem encodeXY_zero_fields {w : Word} {op : BitVec 4} (h : fieldOp w = op) (hn : fieldN w = 0) :
    encodeXY op (fieldX w) (fieldY w) 0 = w :=
  (congrArg (encodeXY op (fieldX w) (fieldY w)) hn.symm).trans (encodeXY_fields h)

/-- A word has one decoding, so it is enough to know the word of one. -/
theorem encodes_of_decodeWord {w : Word} {i j : Instr} (hj : decodeWord w = .ok j)
    (henc : encode j = w ∧ j.wellFormed = true) (hi : decodeWord w = .ok i) :
    encode i = w ∧ i.wellFormed = true := by
  cases hj.symm.trans hi
  exact henc

/-- Settles O8, by the first nibble: the decoder's answer is made of the fields of the word, so its encoding
puts them back. -/
theorem encodeInvertsDecode : Obligations.EncodeInvertsDecode := by
  intro w i h
  obtain hop | hop | hop | hop | hop | hop | hop | hop | hop | hop | hop | hop | hop | hop | hop | hop :=
    fieldOp_cases w
  · exact encodes_of_decodeWord (decodeWord_op0 hop) (decodeZero_encodes hop) h
  · exact encodes_of_decodeWord (decodeWord_op1 hop) ⟨encodeA_fields hop, rfl⟩ h
  · exact encodes_of_decodeWord (decodeWord_op2 hop) ⟨encodeA_fields hop, rfl⟩ h
  · exact encodes_of_decodeWord (decodeWord_op3 hop) ⟨encodeXK_fields hop, rfl⟩ h
  · exact encodes_of_decodeWord (decodeWord_op4 hop) ⟨encodeXK_fields hop, rfl⟩ h
  · rw [decodeWord_op5 hop] at h
    split_ifs at h with hn
    cases h
    exact ⟨encodeXY_zero_fields hop hn, rfl⟩
  · exact encodes_of_decodeWord (decodeWord_op6 hop) ⟨encodeXK_fields hop, rfl⟩ h
  · exact encodes_of_decodeWord (decodeWord_op7 hop) ⟨encodeXK_fields hop, rfl⟩ h
  · obtain ⟨hword, hwf⟩ := decodeAlu_encodes ((decodeWord_op8 hop).symm.trans h)
    exact ⟨hword.trans (encodeXY_fields hop), hwf⟩
  · rw [decodeWord_op9 hop] at h
    split_ifs at h with hn
    cases h
    exact ⟨encodeXY_zero_fields hop hn, rfl⟩
  · exact encodes_of_decodeWord (decodeWord_opA hop) ⟨encodeA_fields hop, rfl⟩ h
  · exact encodes_of_decodeWord (decodeWord_opB hop) ⟨encodeA_fields hop, rfl⟩ h
  · exact encodes_of_decodeWord (decodeWord_opC hop) ⟨encodeXK_fields hop, rfl⟩ h
  · exact encodes_of_decodeWord (decodeWord_opD hop) ⟨encodeXY_fields hop, rfl⟩ h
  · obtain ⟨hword, hwf⟩ := decodeKey_encodes ((decodeWord_opE hop).symm.trans h)
    exact ⟨hword.trans (encodeXK_fields hop), hwf⟩
  · obtain ⟨hword, hwf⟩ := decodeMisc_encodes ((decodeWord_opF hop).symm.trans h)
    exact ⟨hword.trans (encodeXK_fields hop), hwf⟩

end Sys2Proof
end

section
/-!
`JP nnn` and the ticks around it (40_control_flow.md R72; 30_encoding.md R62): what a `tick` answers when the
fetched word decodes and when no word can be fetched, and the tick that jumps to its own address.
-/

namespace Sys2Proof.Machine

/-! ### What a tick answers while no fault is latched (30_encoding.md R62) -/

/-- A `tick` that decodes `i` is the execute phase of `i`, with `RUN` set and `PC` past the instruction. -/
theorem tick_of_executes {s : State} {i : Instr} (hf : s.fault = none) (h : Executes s i) :
    tick s = exec i (s.start.setPc (s.pc + 2)) := by
  obtain ⟨hpc, hdecode⟩ := h
  rw [State.fetched] at hdecode
  rw [tick_of_running hf, if_pos (by omega), decodeAndExecute, hdecode]

/-- A `tick` whose word does not lie in memory whole faults with the lowest address above 0xFFF (20_memory.md
R33). -/
theorem tick_of_unfetchable {s : State} (hf : s.fault = none) (h : 0xFFE < s.pc.toNat) :
    tick s = .fault (.memoryOutOfRange (max s.pc.toNat 0x1000)) := by
  rw [tick_of_running hf, if_neg (by omega)]

/-! ### The jump (40_control_flow.md R72) -/

@[simp] theorem addrWord_toNat (nnn : Addr12) : (addrWord nnn).toNat = nnn.toNat :=
  BitVec.toNat_setWidth_of_le (by decide)

theorem exec_jp (nnn : Addr12) (s : State) : exec (.jp nnn) s = .next (s.setPc (addrWord nnn)) := rfl

theorem State.start_of_run {s : State} (h : s.run = true) : s.start = s := by
  rw [State.start, ← h]

/-- A running machine at a jump to its own address stands still: the fetch moves `PC` only, and the jump puts
it back. -/
theorem tick_of_jp_to_itself {s : State} {nnn : Addr12} (hf : s.fault = none) (hrun : s.run = true)
    (hjp : Executes s (.jp nnn)) (hself : s.pc.toNat = nnn.toNat) : tick s = .next s := by
  have hpc : addrWord nnn = s.pc := BitVec.eq_of_toNat_eq (by rw [addrWord_toNat, hself])
  rw [tick_of_executes hf hjp, exec_jp, State.start_of_run hrun, hpc]
  rfl

/-- Settles O16: the next state is `s` with `PC` set to `nnn`, and the two corner clauses are a tick that cannot
fetch and a tick that jumps to itself. -/
theorem jpSetsThePc : Obligations.JpSetsThePc := by
  intro nnn s
  refine ⟨decodeWord_encode (i := .jp nnn) rfl, s.setPc (addrWord nnn), exec_jp nnn s, addrWord_toNat nnn,
    exec_frame (exec_jp nnn s), ?_, tick_of_jp_to_itself⟩
  rintro rfl hf
  have hpc : (s.setPc (addrWord 0xFFF)).pc.toNat = 0xFFF := addrWord_toNat 0xFFF
  rw [tick_of_unfetchable (s := s.setPc (addrWord 0xFFF)) hf (by omega), hpc]
  rfl

end Sys2Proof.Machine
end

section
/-!
Registers and the ALU (41_register_alu.md): the value and the flag each operation computes, as arithmetic on the
operands, and what an instruction that ends in `State.setResult` leaves in `V[x]` and VF (R101).
-/

namespace Sys2Proof.Machine

/-! ### The result, then the flag (41_register_alu.md R101, decision D4) -/

theorem State.reg_setResult_of_ne (s : State) {x : Reg} (hx : x ≠ vF) (r : Byte) (flag : Bool) :
    (s.setResult x r flag).reg x = r := by
  rw [State.reg_setResult, if_neg hx, if_pos rfl]

/-- VF ends as the flag, also when VF is the destination of the result. -/
theorem State.reg_setResult_vF (s : State) (x : Reg) (r : Byte) (flag : Bool) :
    (s.setResult x r flag).reg vF = flagByte flag := by
  rw [State.reg_setResult, if_pos rfl]

/-- An arithmetic instruction: the numbers in `V[x]` and VF are those of the result and of the flag. -/
theorem exec_setResult_toNat {i : Instr} {s : State} {x : Reg} {r : Byte} {flag : Bool} {value bit : Nat}
    (hexec : exec i s = .next (s.setResult x r flag)) (hvalue : r.toNat = value)
    (hbit : (flagByte flag).toNat = bit) :
    ∃ t, exec i s = .next t ∧ (x ≠ vF → (t.reg x).toNat = value) ∧ (t.reg vF).toNat = bit ∧
      Frame (fun q => q = x ∨ q = vF) [] noByte s t := by
  refine ⟨_, hexec, fun hx => ?_, ?_, frame_setResult s x r flag⟩
  · rw [State.reg_setResult_of_ne s hx, hvalue]
  · rw [State.reg_setResult_vF, hbit]

/-- A logic instruction: the bits of `V[x]` are those of the result, and VF is reset. -/
theorem exec_setResult_bits {i : Instr} {s : State} {x : Reg} {r : Byte} {bits : Nat → Bool}
    (hexec : exec i s = .next (s.setResult x r false)) (hbits : ∀ b, r.getLsbD b = bits b) :
    ∃ t, exec i s = .next t ∧ (x ≠ vF → ∀ b < 8, (t.reg x).getLsbD b = bits b) ∧ t.reg vF = 0 ∧
      Frame (fun q => q = x ∨ q = vF) [] noByte s t := by
  refine ⟨_, hexec, fun hx b _ => ?_, State.reg_setResult_vF s x r false, frame_setResult s x r false⟩
  rw [State.reg_setResult_of_ne s hx, hbits]

/-! ### The flags as numbers (41_register_alu.md R103) -/

theorem toNat_flagByte (b : Bool) : (flagByte b).toNat = b.toNat := by
  cases b <;> rfl

theorem toNat_flagByte_decide (p : Prop) [Decidable p] : (flagByte (decide p)).toNat = if p then 1 else 0 := by
  rw [toNat_flagByte, Bool.toNat, Bool.cond_decide]

theorem toNat_flagByte_carryOut (a b : Byte) :
    (flagByte (carryOut a b)).toNat = if 255 < a.toNat + b.toNat then 1 else 0 :=
  toNat_flagByte_decide _

theorem toNat_flagByte_notBorrow (a b : Byte) :
    (flagByte (notBorrow a b)).toNat = if b.toNat ≤ a.toNat then 1 else 0 :=
  toNat_flagByte_decide _

theorem toNat_flagByte_shiftedOutLow (a : Byte) : (flagByte (shiftedOutLow a)).toNat = a.toNat % 2 := by
  rw [toNat_flagByte, shiftedOutLow, ← BitVec.testBit_toNat, Nat.toNat_testBit, pow_zero, Nat.div_one]

/-- Bit 7 is the leading bit of a byte. -/
theorem toNat_flagByte_shiftedOutHigh (a : Byte) : (flagByte (shiftedOutHigh a)).toNat = a.toNat / 128 := by
  rw [toNat_flagByte, shiftedOutHigh, ← BitVec.testBit_toNat, Nat.toNat_testBit]
  have := a.isLt
  omega

/-! ### The results as numbers (41_register_alu.md R97 to R100) -/

/-- A difference of bytes, with the 256 that keeps it from going below 0 added to the first operand. -/
theorem toNat_byte_sub (a b : Byte) : (a - b).toNat = (a.toNat + 256 - b.toNat) % 256 := by
  rw [BitVec.toNat_sub]
  have := b.isLt
  omega

theorem toNat_byte_shiftRight_one (a : Byte) : (a >>> 1).toNat = a.toNat / 2 := by
  rw [BitVec.toNat_ushiftRight, Nat.shiftRight_one]

theorem toNat_byte_shiftLeft_one (a : Byte) : (a <<< 1).toNat = a.toNat * 2 % 256 := by
  rw [BitVec.toNat_shiftLeft, Nat.shiftLeft_eq]

/-! ### The statements -/

/-- Settles O21: the word is the encoding of `LD Vx, kk`, and its execution is one register write. -/
theorem ldImmWritesTheByte : Obligations.LdImmWritesTheByte := by
  intro x kk s
  refine ⟨decodeWord_encode (i := .ldImm x kk) rfl, s.setReg x kk, rfl, ?_, frame_setReg s x kk⟩
  rw [State.reg_setReg, if_pos rfl]

/-- Settles O24: each instruction writes the bitwise operation of the two registers, and 0 to VF after it. -/
theorem logicResetsTheFlag : Obligations.LogicResetsTheFlag := by
  intro x y s
  exact ⟨exec_setResult_bits rfl fun _ => BitVec.getLsbD_or,
    exec_setResult_bits rfl fun _ => BitVec.getLsbD_and,
    exec_setResult_bits rfl fun _ => BitVec.getLsbD_xor⟩

/-- Settles O25: the sum of bytes is the sum modulo 256, and the flag is `carryOut`. -/
theorem addRegSetsTheCarry : Obligations.AddRegSetsTheCarry := by
  intro x y s
  exact ⟨decodeWord_encode (i := .addReg x y) rfl,
    exec_setResult_toNat rfl (BitVec.toNat_add ..) (toNat_flagByte_carryOut ..)⟩

/-- Settles O26: `SUBN` is `SUB` with the operands exchanged, in the difference and in the flag `notBorrow`. -/
theorem subtractsSetTheNotBorrow : Obligations.SubtractsSetTheNotBorrow := by
  intro x y s
  exact ⟨exec_setResult_toNat rfl (toNat_byte_sub ..) (toNat_flagByte_notBorrow ..),
    exec_setResult_toNat rfl (toNat_byte_sub ..) (toNat_flagByte_notBorrow ..)⟩

/-- Settles O27: `src` is the number in the operand `SHIFT_SRC` selects, and both shifts are arithmetic on it. -/
theorem shiftsSetTheBitShiftedOut : Obligations.ShiftsSetTheBitShiftedOut := by
  intro x y s src hsrc
  obtain rfl : src = (s.shiftOperand x y).toNat := by
    rw [hsrc, State.shiftOperand]
    cases s.shiftSrc <;> rfl
  exact ⟨exec_setResult_toNat rfl (toNat_byte_shiftRight_one _) (toNat_flagByte_shiftedOutLow _),
    exec_setResult_toNat rfl (toNat_byte_shiftLeft_one _) (toNat_flagByte_shiftedOutHigh _)⟩

end Sys2Proof.Machine
end

section
/-!
The display instructions (43_display.md): a draw as the list of the cells its set bits fall on, toggled one by
one. A sprite has fewer rows and columns than the screen, so no cell is in the list twice, and the toggles
together are one exclusive-or whose collision can be read from the framebuffer before the draw.
-/

namespace Sys2Proof.Machine

/-- Settles O35: `CLS` replaces the framebuffer by the unlit one. -/
theorem clsClearsTheScreen : Obligations.ClsClearsTheScreen := by
  intro s
  have hexec : exec .cls s = .next (s.setFb Framebuffer.clear) := rfl
  exact ⟨decodeWord_encode (i := .cls) rfl, _, hexec, Framebuffer.cell_clear, exec_frame hexec⟩

/-! ### Toggling a list of cells (43_display.md R122, R124) -/

/-- A cell of the framebuffer, as its column and its row. -/
abbrev ScreenCell := Column × Line

/-- Toggles the cells of a list, in order. -/
def drawCells (cells : List ScreenCell) (d : Framebuffer × Bool) : Framebuffer × Bool :=
  cells.foldl (fun d q => drawPixel q.1 q.2 d) d

theorem drawCells_cons (q : ScreenCell) (cells : List ScreenCell) (d : Framebuffer × Bool) :
    drawCells (q :: cells) d = drawCells cells (drawPixel q.1 q.2 d) := rfl

theorem drawCells_append (cells cells' : List ScreenCell) (d : Framebuffer × Bool) :
    drawCells (cells ++ cells') d = drawCells cells' (drawCells cells d) := List.foldl_append

theorem cell_drawPixel (q p : ScreenCell) (d : Framebuffer × Bool) :
    (drawPixel q.1 q.2 d).1.cell p.1 p.2 = (d.1.cell p.1 p.2 ^^ decide (p = q)) := by
  simp only [drawPixel, Framebuffer.cell_toggle, ← Prod.ext_iff]
  by_cases h : p = q <;> simp [h]

/-- Cells toggled once each: the listed ones are inverted. -/
theorem cell_drawCells {cells : List ScreenCell} (h : cells.Nodup) (d : Framebuffer × Bool) (p : ScreenCell) :
    (drawCells cells d).1.cell p.1 p.2 = (d.1.cell p.1 p.2 ^^ decide (p ∈ cells)) := by
  induction cells generalizing d with
  | nil => simp [drawCells]
  | cons q cells ih =>
    obtain ⟨hq, hcells⟩ := List.nodup_cons.1 h
    rw [drawCells_cons, ih hcells, cell_drawPixel]
    by_cases hp : p = q
    · subst hp
      simp [hq]
    · simp [hp]

/-- Cells toggled once each: a collision is a listed cell that was lit before the first toggle. -/
theorem collision_drawCells {cells : List ScreenCell} (h : cells.Nodup) (d : Framebuffer × Bool) :
    (drawCells cells d).2 = true ↔ d.2 = true ∨ ∃ q ∈ cells, d.1.cell q.1 q.2 = true := by
  induction cells generalizing d with
  | nil => simp [drawCells]
  | cons q cells ih =>
    obtain ⟨hq, hcells⟩ := List.nodup_cons.1 h
    have hsame : ∀ p ∈ cells, (drawPixel q.1 q.2 d).1.cell p.1 p.2 = d.1.cell p.1 p.2 := by
      intro p hp
      have hne : p ≠ q := fun he => hq (he ▸ hp)
      simp [cell_drawPixel, hne]
    have hlit : (drawPixel q.1 q.2 d).2 = (d.2 || d.1.cell q.1 q.2) := rfl
    rw [drawCells_cons, ih hcells, hlit, Bool.or_eq_true, or_assoc, List.exists_mem_cons_iff]
    exact or_congr_right (or_congr_right (exists_congr fun p => and_congr_right fun hp => by rw [hsame p hp]))

/-! ### The cells of a sprite -/

/-- The cells the set bits of the row byte `b` fall on, in the framebuffer row `py` (R122). -/
def rowCells (x0 : Byte) (py : Line) (b : Byte) : List ScreenCell :=
  ((List.range Config.spriteWidth).filter (spriteBit b)).map fun c => (spriteColumn x0 c, py)

/-- The cells the set bits of the sprite rows `r`, `r + 1`, ... fall on (R122). -/
def spriteCells (x0 y0 : Byte) (r : Nat) : List Byte → List ScreenCell
  | [] => []
  | b :: bs => rowCells x0 (spriteRow y0 r) b ++ spriteCells x0 y0 (r + 1) bs

theorem drawColumns_eq_drawCells (x0 : Byte) (py : Line) (b : Byte) (cs : List Nat) (d : Framebuffer × Bool) :
    drawColumns x0 py b cs d = drawCells ((cs.filter (spriteBit b)).map fun c => (spriteColumn x0 c, py)) d := by
  induction cs generalizing d with
  | nil => rfl
  | cons c cs ih =>
    rw [drawColumns, ih]
    by_cases hc : spriteBit b c = true
    · rw [if_pos hc, List.filter_cons_of_pos hc, List.map_cons, drawCells_cons]
    · rw [if_neg hc, List.filter_cons_of_neg hc]

theorem drawRows_eq_drawCells (x0 y0 : Byte) (r : Nat) (rows : List Byte) (d : Framebuffer × Bool) :
    drawRows x0 y0 r rows d = drawCells (spriteCells x0 y0 r rows) d := by
  induction rows generalizing r d with
  | nil => rfl
  | cons b bs ih => rw [drawRows, drawColumns_eq_drawCells, ih, spriteCells, rowCells, drawCells_append]

theorem mem_rowCells {x0 : Byte} {py : Line} {b : Byte} {p : ScreenCell} :
    p ∈ rowCells x0 py b ↔
      p.2 = py ∧ ∃ c < Config.spriteWidth, p.1 = spriteColumn x0 c ∧ spriteBit b c = true := by
  simp only [rowCells, List.mem_map, List.mem_filter, List.mem_range, Prod.ext_iff]
  constructor
  · rintro ⟨c, ⟨hc, hbit⟩, hx, hy⟩
    exact ⟨hy.symm, c, hc, hx.symm, hbit⟩
  · rintro ⟨hy, c, hc, hx, hbit⟩
    exact ⟨c, ⟨hc, hbit⟩, hx.symm, hy.symm⟩

theorem mem_spriteCells {x0 y0 : Byte} {r : Nat} {rows : List Byte} {p : ScreenCell} :
    p ∈ spriteCells x0 y0 r rows ↔
      ∃ k b, rows[k]? = some b ∧ p ∈ rowCells x0 (spriteRow y0 (r + k)) b := by
  induction rows generalizing r with
  | nil => simp [spriteCells]
  | cons b bs ih =>
    rw [spriteCells, List.mem_append, ih]
    refine Iff.trans ?_ Nat.or_exists_add_one
    simp [Nat.add_assoc, Nat.add_comm 1]

/-! ### No cell of a sprite twice -/

/-- Columns less than a screen's width apart do not wrap onto each other. -/
theorem eq_of_spriteColumn_eq (x0 : Byte) {c c' : Nat} (hc : c < Config.fbWidth) (hc' : c' < Config.fbWidth)
    (h : spriteColumn x0 c = spriteColumn x0 c') : c = c' := by
  have hval : (x0.toNat + c) % 64 = (x0.toNat + c') % 64 := congrArg Fin.val h
  rw [fbWidth_eq] at hc hc'
  omega

/-- Rows less than a screen's height apart do not wrap onto each other. -/
theorem spriteRow_ne (y0 : Byte) {r k : Nat} (hk : k + 1 < Config.fbHeight) :
    spriteRow y0 (r + 1 + k) ≠ spriteRow y0 r := by
  intro h
  have hval : (y0.toNat + (r + 1 + k)) % 32 = (y0.toNat + r) % 32 := congrArg Fin.val h
  rw [fbHeight_eq] at hk
  omega

theorem nodup_rowCells (x0 : Byte) (py : Line) (b : Byte) : (rowCells x0 py b).Nodup := by
  refine List.Nodup.map_on (fun c hc c' hc' h => ?_) (List.nodup_range.filter _)
  have hlt : ∀ {c}, c ∈ (List.range Config.spriteWidth).filter (spriteBit b) → c < Config.fbWidth := fun hc =>
    (List.mem_range.1 (List.mem_of_mem_filter hc)).trans (by decide)
  exact eq_of_spriteColumn_eq x0 (hlt hc) (hlt hc') (Prod.ext_iff.1 h).1

theorem nodup_spriteCells (x0 y0 : Byte) (r : Nat) {rows : List Byte} (h : rows.length ≤ Config.fbHeight) :
    (spriteCells x0 y0 r rows).Nodup := by
  induction rows generalizing r with
  | nil => exact List.nodup_nil
  | cons b bs ih =>
    rw [List.length_cons] at h
    refine List.nodup_append'.2 ⟨nodup_rowCells .., ih (r + 1) (by omega), fun p hp hp' => ?_⟩
    obtain ⟨hy, -⟩ := mem_rowCells.1 hp
    obtain ⟨k, b', hk, hrow⟩ := mem_spriteCells.1 hp'
    obtain ⟨hlt, -⟩ := List.getElem?_eq_some_iff.1 hk
    obtain ⟨hy', -⟩ := mem_rowCells.1 hrow
    exact spriteRow_ne y0 (by omega) (hy'.symm.trans hy)

/-! ### The draw as one exclusive-or -/

theorem cell_drawSprite (x0 y0 : Byte) {rows : List Byte} (h : rows.length ≤ Config.fbHeight)
    (f : Framebuffer) (px : Column) (py : Line) :
    (drawSprite x0 y0 rows f).1.cell px py = (f.cell px py ^^ decide ((px, py) ∈ spriteCells x0 y0 0 rows)) := by
  rw [drawSprite, drawRows_eq_drawCells]
  exact cell_drawCells (nodup_spriteCells x0 y0 0 h) (f, false) (px, py)

theorem collision_drawSprite (x0 y0 : Byte) {rows : List Byte} (h : rows.length ≤ Config.fbHeight)
    (f : Framebuffer) :
    (drawSprite x0 y0 rows f).2 = true ↔
      ∃ px py, (px, py) ∈ spriteCells x0 y0 0 rows ∧ f.cell px py = true := by
  rw [drawSprite, drawRows_eq_drawCells, collision_drawCells (nodup_spriteCells x0 y0 0 h)]
  simp

/-- Settles O37: the second exclusive-or with the same cells undoes the first. -/
theorem drawTwiceRestoresTheScreen : Obligations.DrawTwiceRestoresTheScreen := by
  intro x0 y0 rows f hlen
  have hrows : rows.length ≤ Config.fbHeight := hlen.trans (by decide)
  refine Framebuffer.ext_cells fun px py => ?_
  rw [cell_drawSprite x0 y0 hrows, cell_drawSprite x0 y0 hrows, Bool.xor_assoc, Bool.xor_self, Bool.xor_false]

/-! ### `DRW` (43_display.md R122 to R124) -/

/-- The row bytes are those from `I` on, so the cells of the sprite are those it covers. -/
theorem mem_spriteCells_iff_covers (s : State) (x0 y0 : Byte) (n : Nat) (px : Column) (py : Line) :
    (px, py) ∈ spriteCells x0 y0 0 (bytesFrom s s.i.toNat n) ↔ SpriteCovers s x0 y0 n px py := by
  simp only [mem_spriteCells, mem_rowCells, getElem?_bytesFrom, SpriteCovers, spriteBit, spriteColumn, spriteRow,
    Fin.ext_iff, Fin.val_ofNat, Nat.zero_add, Option.ite_none_right_eq_some, Option.some.injEq]
  constructor
  · rintro ⟨r, b, ⟨hr, rfl⟩, hy, c, hc, hx, hbit⟩
    exact ⟨r, c, hr, hc, hx, hy, hbit⟩
  · rintro ⟨r, c, hr, hc, hx, hy, hbit⟩
    exact ⟨r, _, ⟨hr, rfl⟩, hy, c, hc, hx, hbit⟩

theorem exec_drw_of_fits (x y : Reg) {n : RowCount} {s : State} (h : n.val = 0 ∨ s.i.toNat + n.val ≤ 4096) :
    exec (.drw x y n) s =
      .next ((s.setFb (drawSprite (s.reg x) (s.reg y) (bytesFrom s s.i.toNat n.val) s.fb).1).setFlag
        (drawSprite (s.reg x) (s.reg y) (bytesFrom s s.i.toNat n.val) s.fb).2) := by
  simp only [exec, execDrw, State.dataAddr, readBytes_eq, if_pos h]

/-- Settles O36: the draw inverts the cells the sprite covers, its collision is one of them lit before, and the
rest is the footprint of `DRW`. -/
theorem drawIsOneExclusiveOr : Obligations.DrawIsOneExclusiveOr := by
  intro x y n s hfits
  have hexec := exec_drw_of_fits x y (n := n) (s := s) (hfits.imp_right fun h => by omega)
  have hrows : (bytesFrom s s.i.toNat n.val).length ≤ Config.fbHeight := by
    rw [length_bytesFrom, fbHeight_eq]
    omega
  have hcollision := collision_drawSprite (s.reg x) (s.reg y) hrows s.fb
  simp only [mem_spriteCells_iff_covers] at hcollision
  refine ⟨_, hexec, fun px py => ?_, fun hlit => ?_, fun hunlit => ?_, exec_frame hexec⟩
  · rw [State.pixel_setFlag, State.pixel_setFb, cell_drawSprite _ _ hrows, State.pixel]
    have hmem := mem_spriteCells_iff_covers s (s.reg x) (s.reg y) n.val px py
    exact ⟨fun hcov => by rw [decide_eq_true (hmem.2 hcov), Bool.xor_true],
      fun hcov => by rw [decide_eq_false (mt hmem.1 hcov), Bool.xor_false]⟩
  · rw [State.reg_setFlag, if_pos rfl, hcollision.2 hlit]
    rfl
  · rw [State.reg_setFlag, if_pos rfl, Bool.eq_false_iff.2 (mt hcollision.1 hunlit)]
    rfl

end Sys2Proof.Machine
end

section
/-!
The event `tick_timers` and the two outputs (60_exceptions.md R150, R152, R154): the count of a timer,
which stops at 0, the threshold of the sound, and the row-major order of the screen.
-/

namespace Sys2Proof.Machine

/-! ### The outputs -/

/-- Settles O46: the threshold is 2, so `ST` above it is `ST` of 3 or more. -/
theorem soundIsActiveAboveTwo : Obligations.SoundIsActiveAboveTwo := by
  intro s
  simp only [State.soundActive, soundThreshold_eq, decide_eq_true_eq, decide_eq_false_iff_not]
  omega

/-- The output is the framebuffer as one vector, its rows one after another. -/
theorem State.screenBuffer_eq_flatten (s : State) : s.screenBuffer = s.fb.flatten.toList := by
  rw [Vector.flatten, Vector.toList, Array.toList_flatten, Array.toList_map, List.map_map, State.screenBuffer,
    List.flatMap_def]
  rfl

theorem State.length_screenBuffer (s : State) : s.screenBuffer.length = Config.fbCells := by
  rw [State.screenBuffer_eq_flatten, Vector.length_toList, Nat.mul_comm]

/-- An index of the output splits into its row, the quotient by the width, and its column, the remainder. -/
theorem State.getElem?_screenBuffer (s : State) (px : Fin 64) (py : Fin 32) :
    s.screenBuffer[py.val * 64 + px.val]? = some (s.pixel px py) := by
  have hi : py.val * 64 + px.val < Config.fbHeight * Config.fbWidth := by
    rw [fbHeight_eq, fbWidth_eq]
    omega
  have hrow : (py.val * 64 + px.val) / 64 = py.val := by omega
  have hcol : (py.val * 64 + px.val) % 64 = px.val := by omega
  rw [State.screenBuffer_eq_flatten, Vector.getElem?_toList, Vector.getElem?_eq_getElem hi,
    Vector.getElem_flatten]
  simp only [fbWidth_eq, hrow, hcol, State.pixel, Framebuffer.cell]

/-- Settles O38: the output is the flattened framebuffer, of `32 * 64` cells. -/
theorem screenBufferIsRowMajor : Obligations.ScreenBufferIsRowMajor := fun s =>
  ⟨s.length_screenBuffer, fbCells_eq, s.getElem?_screenBuffer⟩

/-! ### The event `tick_timers` -/

/-- The truncated subtraction is the count: a timer at 0 stays there. -/
theorem toNat_countDown (b : Byte) : (countDown b).toNat = b.toNat - 1 := by
  unfold countDown
  split_ifs with hb
  · rw [hb]
    rfl
  · bv_omega

theorem tickTimersEvent_of_running {s : State} (h : s.fault = none) :
    tickTimersEvent s = .next ((s.setDt (countDown s.dt)).setSt (countDown s.st)) :=
  unlessFaulted_none h _

theorem tickTimersEvent_of_fault {s : State} {f : Fault} (h : s.fault = some f) : tickTimersEvent s = .next s :=
  unlessFaulted_some h _

theorem frame_setDt_setSt (s : State) (d e : Byte) : Frame noReg [.dt, .st] noByte s ((s.setDt d).setSt e) := by
  simp [Frame]

/-- Settles O44: the two writes of `tick_timers` are the two counts, and `FAULT` holds them back. -/
theorem tickTimersCountsDown : Obligations.TickTimersCountsDown := by
  intro s
  refine ⟨fun hrunning => ⟨_, tickTimersEvent_of_running hrunning, ?_, ?_, frame_setDt_setSt ..⟩,
    fun f hfault => tickTimersEvent_of_fault hfault⟩
  · exact toNat_countDown s.dt
  · exact toNat_countDown s.st

end Sys2Proof.Machine
end

section
/-!
Control flow (40_control_flow.md R70 to R79): everything `RET` and `CALL` can answer, the round trip of a return
address through the stack, and what an instruction that ends in the skip primitive leaves.
-/

namespace Sys2Proof.Machine

/-- The lowest out-of-range address of an access that leaves memory is the larger of its start and 0x1000. -/
theorem faultEdge_eq_max (a : Nat) : faultEdge a = max a 4096 := by
  unfold faultEdge
  split_ifs <;> omega

/-! ### `SYS` and `JP V0` (R70, R74) -/

/-- The word of `SYS nnn` is its address, extended by a zero nibble. -/
theorem encode_sys (nnn : Addr12) : encode (.sys nnn) = addrWord nnn :=
  BitVec.eq_of_toNat_eq (by rw [encode, encodeA_toNat, addrWord_toNat]; simp)

theorem exec_sys (nnn : Addr12) (s : State) : exec (.sys nnn) s = .fault (.invalidOpcode (encode (.sys nnn))) := by
  rw [encode_sys]
  rfl

/-- Settles O14: `SYS nnn` raises its own word. -/
theorem sysRaisesInvalidOpcode : Obligations.SysRaisesInvalidOpcode := exec_sys

theorem byteWord_toNat (b : Byte) : (byteWord b).toNat = b.toNat := BitVec.toNat_setWidth_of_le (by decide)

/-- Settles O19: 12 bits and 8 bits add up to less than 2^16. -/
theorem jpV0AddsTheOffset : Obligations.JpV0AddsTheOffset := by
  intro nnn s
  have hexec : exec (.jpV0 nnn) s = .next (s.setPc (addrWord nnn + byteWord (s.reg v0))) := rfl
  refine ⟨_, hexec, ?_, exec_frame hexec⟩
  have hnnn := nnn.isLt
  have hreg := (s.reg v0).isLt
  rw [State.setPc_pc, BitVec.toNat_add, addrWord_toNat, byteWord_toNat]
  exact Nat.mod_eq_of_lt (by omega)

/-! ### The stack (R71, R73) -/

/-- Everything `RET` can answer. -/
theorem exec_ret_eq (s : State) :
    exec .ret s =
      if s.sp.toNat + 1 < 4096 then
        .next ((s.setSp (s.sp - 2)).setPc (wordOfBytes (s.byteAt s.sp.toNat) (s.byteAt (s.sp.toNat + 1))))
      else .fault (.memoryOutOfRange (max s.sp.toNat 4096)) := by
  simp only [exec, execRet, pop_eq]
  split_ifs <;> rfl

/-- The state after a `CALL nnn` that fits. -/
def State.called (s : State) (nnn : Addr12) : State :=
  ((s.setSp s.pushAddr).setMem (s.mem.write2 s.pushAddr.toNat s.pc)).setPc (addrWord nnn)

/-- Everything `CALL nnn` can answer. -/
theorem exec_call_eq (nnn : Addr12) (s : State) :
    exec (.call nnn) s =
      if s.pushAddr.toNat + 1 < 4096 then .next (s.called nnn)
      else .fault (.memoryOutOfRange (max s.pushAddr.toNat 4096)) := by
  simp only [exec, execCall, push_eq]
  split_ifs <;> rfl

/-- Settles O15: `RET` that fits takes the word at `SP`. -/
theorem retPopsThePc : Obligations.RetPopsThePc := by
  intro s hfits
  have hexec := exec_ret_eq s
  rw [if_pos (by omega)] at hexec
  exact ⟨_, hexec, wordOfBytes_toNat _ _, rfl, exec_frame hexec⟩

@[simp] theorem State.called_sp (s : State) (nnn : Addr12) : (s.called nnn).sp = s.pushAddr := rfl

theorem State.byteAt_called_high (s : State) (nnn : Addr12) :
    (s.called nnn).byteAt s.pushAddr.toNat = s.pc.extractLsb' 8 8 := s.byteAt_write2_high s.pushAddr.toNat s.pc

theorem State.byteAt_called_low (s : State) (nnn : Addr12) :
    (s.called nnn).byteAt (s.pushAddr.toNat + 1) = s.pc.extractLsb' 0 8 :=
  s.byteAt_write2_low s.pushAddr.toNat s.pc

/-- Settles O17: `CALL nnn` that fits stores the two bytes of `PC` at the new `SP`. -/
theorem callPushesAndJumps : Obligations.CallPushesAndJumps := by
  intro nnn s hfits
  have hexec := exec_call_eq nnn s
  rw [if_pos (by omega)] at hexec
  refine ⟨_, hexec, addrWord_toNat nnn, BitVec.toNat_add .., rfl, ?_, ?_, exec_frame hexec⟩
  · rw [State.byteAt_called_high, toNat_highByte]
  · rw [State.byteAt_called_low, toNat_lowByte]

/-- `RET` in the state a `CALL` leaves: `PC` and `SP` are those before the `CALL`, and the pushed bytes stay. -/
theorem exec_ret_called {s : State} (nnn : Addr12) (hfits : s.pushAddr.toNat + 1 < 4096) :
    exec .ret (s.called nnn) = .next (s.setMem (s.mem.write2 s.pushAddr.toNat s.pc)) := by
  have hsp : s.pushAddr - 2 = s.sp := BitVec.add_sub_cancel s.sp 2
  rw [exec_ret_eq, State.called_sp, if_pos hfits, State.byteAt_called_high, State.byteAt_called_low,
    wordOfBytes_extract, hsp]
  rfl

/-- Settles O18: `RET` reads back the word `CALL` stored and moves `SP` back by the same 2. -/
theorem retUndoesCall : Obligations.RetUndoesCall := by
  intro nnn s hfits
  have hfits' : s.pushAddr.toNat + 1 < 4096 := by omega
  exact ⟨_, _, (exec_call_eq nnn s).trans (if_pos hfits'), exec_ret_called nnn hfits', frame_write2 s _ s.pc⟩

/-! ### The skip primitive (R75 to R79) -/

/-- An instruction that ends in the skip primitive: `PC` is advanced exactly when the condition holds. -/
theorem exec_skipIf {i : Instr} {s : State} {c : Bool} {w : Word} (hexec : exec i s = .next (skipIf c s))
    (hw : (if c then s.pc + 2 else s.pc) = w) :
    ∃ t, exec i s = .next t ∧ t.pc = w ∧ Frame noReg [.pc] noByte s t := by
  refine ⟨_, hexec, ?_, frame_skipIf c s⟩
  rw [skipIf_eq, State.setPc_pc, hw]

/-- A skip when two bytes are equal. -/
theorem ite_beq {a b : Byte} (w w' : Word) : (if (a == b) = true then w else w') = if a = b then w else w' := by
  simp only [beq_iff_eq]

/-- A skip when two bytes differ. -/
theorem ite_bne {a b : Byte} (w w' : Word) : (if (a != b) = true then w else w') = if a = b then w' else w := by
  simp only [bne_iff_ne, ite_not]

/-- Settles O20: each of the four is the skip primitive on its comparison. -/
theorem skipsCompareRegisters : Obligations.SkipsCompareRegisters := by
  intro x y kk s
  exact ⟨exec_skipIf rfl (ite_beq ..), exec_skipIf rfl (ite_bne ..), exec_skipIf rfl (ite_beq ..),
    exec_skipIf rfl (ite_bne ..)⟩

end Sys2Proof.Machine
end

section
/-!
Register copies, the index register and the memory instructions (41_register_alu.md R91, R92, R102;
42_index_memory.md R110 to R116; 44_timers_keys.md R130 to R132): everything the four instructions that access
memory from `I` on can answer, and where the bytes of a run of stores or of a register range end up.
-/

namespace Sys2Proof.Machine

/-! ### Instructions that write one register or one timer -/

theorem State.reg_setReg_same (s : State) (x : Reg) (b : Byte) : (s.setReg x b).reg x = b := by
  rw [State.reg_setReg, if_pos rfl]

/-- Settles O22: the sum of bytes is the sum modulo 256, and one register is written. -/
theorem addImmWrapsWithoutFlag : Obligations.AddImmWrapsWithoutFlag := by
  intro x kk s
  refine ⟨_, rfl, ?_, frame_setReg s x (s.reg x + kk)⟩
  rw [State.reg_setReg_same, BitVec.toNat_add]

/-- Settles O23: one register is written. -/
theorem ldRegCopies : Obligations.LdRegCopies := by
  intro x y s
  exact ⟨_, rfl, s.reg_setReg_same x (s.reg y), frame_setReg s x (s.reg y)⟩

theorem reg_randomInto (rndIn : Byte) (x : Reg) (kk : Byte) (s : State) :
    (randomInto rndIn x kk s).reg x = rndIn &&& kk := by
  rw [randomInto, State.reg_drawn, State.reg_setReg_same]

/-- Settles O28: `randomInto` masks whatever byte it is given, and `RND` gives it the next free byte. -/
theorem rndMasksTheFreeByte : Obligations.RndMasksTheFreeByte := by
  intro x kk s
  have hexec : exec (.rnd x kk) s = .next (randomInto (Config.rndIn s.draws) x kk s) := rfl
  refine ⟨⟨_, hexec, reg_randomInto .., ?_, rfl, exec_frame hexec⟩, fun rndIn => reg_randomInto rndIn x kk s⟩
  rw [reg_randomInto, BitVec.and_assoc, BitVec.and_not_self]
  exact BitVec.and_zero

/-- Settles O39: each of the three is one write. -/
theorem timerInstructionsCopy : Obligations.TimerInstructionsCopy := by
  intro x s
  have hdt : exec (.ldDtVx x) s = .next (s.setDt (s.reg x)) := rfl
  have hst : exec (.ldStVx x) s = .next (s.setSt (s.reg x)) := rfl
  exact ⟨⟨_, rfl, s.reg_setReg_same x s.dt, frame_setReg s x s.dt⟩, ⟨_, hdt, rfl, exec_frame hdt⟩,
    ⟨_, hst, rfl, exec_frame hst⟩⟩

/-! ### The index register (R110 to R112) -/

/-- Settles O29: `I` is `nnn` extended to 16 bits. -/
theorem ldISetsTheIndex : Obligations.LdISetsTheIndex := by
  intro nnn s
  have hexec : exec (.ldI nnn) s = .next (s.setI (addrWord nnn)) := rfl
  exact ⟨_, hexec, addrWord_toNat nnn, exec_frame hexec⟩

/-- Settles O30: the flag is computed from the 16-bit sum that `I` takes. -/
theorem addIFlagsTheStoredResult : Obligations.AddIFlagsTheStoredResult := by
  intro x s
  have hexec : exec (.addI x) s = .next ((s.setI (s.i + byteWord (s.reg x))).setFlag
      (indexOverflow (s.i + byteWord (s.reg x)))) := rfl
  refine ⟨_, hexec, ?_, ?_, exec_frame hexec⟩
  · rw [State.setFlag_i, State.setI_i, BitVec.toNat_add, byteWord_toNat]
  · rw [State.reg_setFlag, if_pos rfl]
    exact toNat_flagByte_decide _

theorem glyphAddr_toNat (b : Byte) : (glyphAddr b).toNat = b.toNat * 5 := by
  rw [glyphAddr, fontGlyphBytes_eq, BitVec.toNat_ofNat]
  exact Nat.mod_eq_of_lt (by omega)

/-- Settles O31: five times a byte is below 2^16, so nothing is lost. -/
theorem ldFPointsAtTheGlyph : Obligations.LdFPointsAtTheGlyph := by
  intro x s
  have hexec : exec (.ldF x) s = .next (s.setI (glyphAddr (s.reg x))) := rfl
  exact ⟨_, hexec, glyphAddr_toNat (s.reg x), exec_frame hexec⟩

/-! ### What the instructions that access memory from `I` on can answer (R113 to R116) -/

@[simp] theorem length_bcdDigits (b : Byte) : (bcdDigits b).length = 3 := rfl

/-- Everything a run of at least one store from `I` on can answer. -/
theorem finish_writeBytes_eq (s : State) {bs : List Byte} {n : Nat} (hlen : bs.length = n + 1) :
    finish (writeBytes s s.dataAddr bs) =
      if s.i.toNat + n < 4096 then .next (s.setMem (s.mem.writeAll s.dataAddr bs))
      else .fault (.memoryOutOfRange (max s.i.toNat 4096)) := by
  have hne : bs ≠ [] := List.ne_nil_of_length_eq_add_one hlen
  simp only [writeBytes_eq, hlen, hne, false_or, State.dataAddr, ← Nat.add_assoc, Nat.add_one_le_iff]
  split_ifs <;> rfl

/-- Everything `LD B, Vx` can answer. -/
theorem exec_ldB_eq (x : Reg) (s : State) :
    exec (.ldB x) s =
      if s.i.toNat + 2 < 4096 then .next (s.setMem (s.mem.writeAll s.dataAddr (bcdDigits (s.reg x))))
      else .fault (.memoryOutOfRange (max s.i.toNat 4096)) :=
  finish_writeBytes_eq s (length_bcdDigits _)

/-- Everything `LD [I], Vx` can answer. -/
theorem exec_storeRegs_eq (x : Reg) (s : State) :
    exec (.storeRegs x) s =
      if s.i.toNat + x.val < 4096 then .next (s.setMem (s.mem.writeAll s.dataAddr (s.regsUpTo x)))
      else .fault (.memoryOutOfRange (max s.i.toNat 4096)) :=
  finish_writeBytes_eq s (s.length_regsUpTo x)

/-- Everything `LD Vx, [I]` can answer. -/
theorem exec_loadRegs_eq (x : Reg) (s : State) :
    exec (.loadRegs x) s =
      if s.i.toNat + x.val < 4096 then .next (s.setRegsFrom 0 (bytesFrom s s.i.toNat (x.val + 1)))
      else .fault (.memoryOutOfRange (max s.i.toNat 4096)) := by
  simp only [exec, execLoadRegs, readBytes_eq, State.dataAddr]
  by_cases hfits : s.i.toNat + x.val < 4096
  · rw [if_pos (by omega), if_pos hfits]
  · rw [if_neg (by omega), if_neg hfits]
    rfl

/-- Everything `DRW Vx, Vy, n` can answer. -/
theorem exec_drw_eq (x y : Reg) (n : RowCount) (s : State) :
    exec (.drw x y n) s =
      if n.val = 0 ∨ s.i.toNat + n.val ≤ 4096 then
        .next ((s.setFb (drawSprite (s.reg x) (s.reg y) (bytesFrom s s.i.toNat n.val) s.fb).1).setFlag
          (drawSprite (s.reg x) (s.reg y) (bytesFrom s s.i.toNat n.val) s.fb).2)
      else .fault (.memoryOutOfRange (max s.i.toNat 4096)) := by
  split_ifs with hfits
  · exact exec_drw_of_fits x y hfits
  · simp only [exec, execDrw, readBytes_eq, State.dataAddr, if_neg hfits, raise_eq]

/-! ### Where the bytes of a run end up -/

/-- The k-th byte of a run of stores is at the k-th address. -/
theorem State.byteAt_writeAll (s : State) (a : Nat) {bs : List Byte} {k : Nat} {b : Byte} (hk : bs[k]? = some b) :
    (s.setMem (s.mem.writeAll a bs)).byteAt (a + k) = b := by
  rw [State.byteAt_setMem, Memory.read_writeAll, if_pos (Nat.le_add_right a k), Nat.add_sub_cancel_left, hk,
    Option.getD_some]

/-- Settles O32: the three digits are a run of three stores. -/
theorem ldBStoresTheDigits : Obligations.LdBStoresTheDigits := by
  intro x s hfits
  have hexec := exec_ldB_eq x s
  rw [State.dataAddr] at hfits
  rw [if_pos (by omega)] at hexec
  have hdigit : ∀ k {n}, n < 256 → (bcdDigits (s.reg x))[k]? = some (BitVec.ofNat 8 n) →
      ((s.setMem (s.mem.writeAll s.dataAddr (bcdDigits (s.reg x)))).byteAt (s.dataAddr + k)).toNat = n := by
    intro k n hn hk
    rw [State.byteAt_writeAll s s.dataAddr hk]
    exact Nat.mod_eq_of_lt hn
  have hreg := (s.reg x).isLt
  exact ⟨_, hexec, rfl, hdigit 0 (by omega) rfl, hdigit 1 (by omega) rfl, hdigit 2 (by omega) rfl,
    exec_frame hexec⟩

/-- Settles O33: the registers up to `V[x]` are a run of `x + 1` stores. -/
theorem storeRegsCopiesOut : Obligations.StoreRegsCopiesOut := by
  intro x s hfits
  have hexec := exec_storeRegs_eq x s
  rw [State.dataAddr] at hfits
  rw [if_pos (by omega)] at hexec
  exact ⟨_, hexec, rfl, fun k hk => State.byteAt_writeAll s s.dataAddr (s.getElem?_regsUpTo x k hk),
    exec_frame hexec⟩

/-- Settles O34: the k-th register takes the k-th of the `x + 1` bytes read. -/
theorem loadRegsCopiesIn : Obligations.LoadRegsCopiesIn := by
  intro x s hfits
  have hexec := exec_loadRegs_eq x s
  rw [if_pos (by omega)] at hexec
  refine ⟨_, hexec, fun k hk => ?_, exec_frame hexec⟩
  have hlt : k.val < x.val + 1 := Nat.lt_succ_of_le hk
  rw [State.reg_setRegsFrom, if_pos (Nat.zero_le _), Nat.sub_zero, getElem?_bytesFrom, if_pos hlt, Option.getD_some]

end Sys2Proof.Machine
end

section
/-!
Keys (44_timers_keys.md R133 to R136; 60_exceptions.md R153): the key skips for a byte that names a key and for one
that does not, the two answers of the key wait, and the event `press_key`.
-/

namespace Sys2Proof.Machine

/-! ### The key skips (R133, R134, R136) -/

theorem skipByKey_of_key {test : Bool → Bool} {x : Reg} {k : Key} {s : State} (h : (s.reg x).toNat = k.val) :
    skipByKey test x s = .next (skipIf (test (s.key k)) s) := by
  have hlt : (s.reg x).toNat < 16 := h ▸ k.isLt
  have hk : (⟨(s.reg x).toNat, hlt⟩ : Key) = k := Fin.ext h
  rw [skipByKey, keyOperand_of_lt hlt, hk]

theorem skipByKey_of_above {test : Bool → Bool} {x : Reg} {s : State} (h : 15 < (s.reg x).toNat) :
    skipByKey test x s = .fault (.keyIndexOutOfRange (s.reg x)) := by
  rw [skipByKey, keyOperand_of_ge (Nat.succ_le_of_lt h)]
  rfl

theorem exec_skp (x : Reg) (s : State) : exec (.skp x) s = skipByKey (fun pressed => pressed) x s := rfl

theorem exec_sknp (x : Reg) (s : State) : exec (.sknp x) s = skipByKey (fun pressed => !pressed) x s := rfl

/-- Settles O40: both are the skip primitive on the latch entry `V[x]` names. -/
theorem keySkipsTestTheLatch : Obligations.KeySkipsTestTheLatch := by
  intro x k s hk
  refine ⟨exec_skipIf ((exec_skp x s).trans (skipByKey_of_key hk)) rfl,
    exec_skipIf ((exec_sknp x s).trans (skipByKey_of_key hk)) ?_⟩
  cases s.key k <;> rfl

/-- Settles O41: a byte above 15 names no key. -/
theorem keySkipsFaultAboveFifteen : Obligations.KeySkipsFaultAboveFifteen := by
  intro x s habove
  exact ⟨(exec_skp x s).trans (skipByKey_of_above habove), (exec_sknp x s).trans (skipByKey_of_above habove)⟩

/-! ### The key wait (R135) -/

theorem exec_ldVxK_of_held {x : Reg} {s : State} {k : Key} (hk : s.key k = true)
    (hlow : ∀ j < k, s.key j = false) : exec (.ldVxK x) s = .next (s.setReg x (BitVec.ofNat 8 k.val)) := by
  have hfirst : s.firstHeld = some k.val := State.firstHeld_eq_some.2 ⟨k, rfl, hk, hlow⟩
  rw [exec, execLdVxK, hfirst]

theorem exec_ldVxK_of_none {x : Reg} {s : State} (h : ∀ k : Key, s.key k = false) :
    exec (.ldVxK x) s = .next (s.setPc (s.pc - 2)) := by
  rw [exec, execLdVxK, State.firstHeld_eq_none.2 h]

theorem frame_setPc (s : State) (w : Word) : Frame noReg [.pc] noByte s (s.setPc w) := by
  simp [Frame]

/-- Settles O42: the lowest key held is `State.firstHeld`, whose two cases are the two clauses. -/
theorem keyWaitTakesTheLowestKey : Obligations.KeyWaitTakesTheLowestKey := by
  intro x s
  refine ⟨fun k hk hlow => ⟨_, exec_ldVxK_of_held hk hlow, ?_, frame_setReg s x _⟩,
    fun hnone => ⟨_, exec_ldVxK_of_none hnone, rfl, frame_setPc s _⟩⟩
  rw [State.reg_setReg_same]
  exact Nat.mod_eq_of_lt (by omega)

/-- Settles O43: the wait takes back the 2 the fetch added to `PC`, and the fetch changes nothing else of a running
machine. -/
theorem keyWaitTickChangesNothing : Obligations.KeyWaitTickChangesNothing := by
  intro x s hf hrun hwait hnone
  have hpc : s.pc + 2 - 2 = s.pc := BitVec.add_sub_cancel s.pc 2
  rw [tick_of_executes hf hwait, State.start_of_run hrun, exec_ldVxK_of_none (s := s.setPc (s.pc + 2)) hnone,
    State.setPc_pc, hpc]
  rfl

/-! ### The event `press_key` -/

theorem frame_setKey (s : State) (k : Key) (b : Bool) : Frame noReg [.keys] noByte s (s.setKey k b) := by
  simp [Frame]

/-- Settles O47: the event writes one entry of the latch, and `FAULT` holds it back. -/
theorem pressKeyWritesOneEntry : Obligations.PressKeyWritesOneEntry := by
  intro k pressed s
  refine ⟨fun hrunning => ⟨_, unlessFaulted_none hrunning _, ?_, fun j hj => ?_, frame_setKey s k pressed⟩,
    fun f hfault => unlessFaulted_some hfault _⟩
  · rw [State.key_setKey, if_pos rfl]
  · rw [State.key_setKey, if_neg hj]

end Sys2Proof.Machine
end

section
/-!
The words the decoder refuses (30_encoding.md R56): for each group with a further selector, which values of the
selector it refuses, and the `SYS` space as the words of the `0nnn` space but two.
-/

namespace Sys2Proof

/-! ### The groups with a further selector -/

theorem decodeAlu_error_iff {x y : Reg} {n : Fin 16} :
    (∃ e, decodeAlu x y n.val = .error e) ↔ n.val ∈ [0x8, 0x9, 0xA, 0xB, 0xC, 0xD, 0xF] := by
  fin_cases n <;> simp [decodeAlu]

theorem decodeKey_error_iff {x : Reg} {kk : Byte} :
    (∃ e, decodeKey x kk = .error e) ↔ kk.toNat ∉ [0x9E, 0xA1] := by
  unfold decodeKey
  split_ifs <;> simp_all [← BitVec.toNat_inj]

theorem decodeMisc_error_iff {x : Reg} {kk : Byte} :
    (∃ e, decodeMisc x kk = .error e) ↔
      kk.toNat ∉ [0x07, 0x0A, 0x15, 0x18, 0x1E, 0x29, 0x33, 0x55, 0x65] := by
  unfold decodeMisc
  split_ifs <;> simp_all [← BitVec.toNat_inj]

/-- `5xyn` and `9xyn`: every last nibble but 0 is refused. -/
theorem ite_error_iff {n : Fin 16} {i : Instr} {e₀ : Invalid} :
    (∃ e, (if n = 0 then .ok i else .error e₀ : Except Invalid Instr) = .error e) ↔ n.val ≠ 0 := by
  rw [Fin.val_ne_zero_iff]
  split_ifs with h <;> simp [h]

/-- The refused words, by the first nibble: the groups without a selector refuse nothing. -/
theorem decodeWord_error_iff (w : Word) :
    (∃ e, decodeWord w = .error e) ↔
      ((fieldOp w).toNat = 0x5 ∧ (fieldN w).val ≠ 0) ∨
      ((fieldOp w).toNat = 0x8 ∧ (fieldN w).val ∈ [0x8, 0x9, 0xA, 0xB, 0xC, 0xD, 0xF]) ∨
      ((fieldOp w).toNat = 0x9 ∧ (fieldN w).val ≠ 0) ∨
      ((fieldOp w).toNat = 0xE ∧ (fieldKk w).toNat ∉ [0x9E, 0xA1]) ∨
      ((fieldOp w).toNat = 0xF ∧
        (fieldKk w).toNat ∉ [0x07, 0x0A, 0x15, 0x18, 0x1E, 0x29, 0x33, 0x55, 0x65]) := by
  obtain hop | hop | hop | hop | hop | hop | hop | hop | hop | hop | hop | hop | hop | hop | hop | hop :=
    fieldOp_cases w
  · simp [decodeWord_op0 hop, hop]
  · simp [decodeWord_op1 hop, hop]
  · simp [decodeWord_op2 hop, hop]
  · simp [decodeWord_op3 hop, hop]
  · simp [decodeWord_op4 hop, hop]
  · rw [decodeWord_op5 hop, ite_error_iff]
    simp [hop]
  · simp [decodeWord_op6 hop, hop]
  · simp [decodeWord_op7 hop, hop]
  · rw [decodeWord_op8 hop, decodeAlu_error_iff]
    simp [hop]
  · rw [decodeWord_op9 hop, ite_error_iff]
    simp [hop]
  · simp [decodeWord_opA hop, hop]
  · simp [decodeWord_opB hop, hop]
  · simp [decodeWord_opC hop, hop]
  · simp [decodeWord_opD hop, hop]
  · rw [decodeWord_opE hop, decodeKey_error_iff]
    simp [hop]
  · rw [decodeWord_opF hop, decodeMisc_error_iff]
    simp [hop]

/-! ### The `SYS` space (R57) -/

theorem encode_sys_toNat (nnn : Addr12) : (encode (.sys nnn)).toNat = nnn.toNat := by
  rw [Machine.encode_sys, Machine.addrWord_toNat]

theorem sysAddressOk_iff_toNat {nnn : Addr12} : sysAddressOk nnn = true ↔ nnn.toNat ∉ [0x0E0, 0x0EE] := by
  simp [sysAddressOk, ← BitVec.toNat_inj]

/-- The words of `SYS` are the encodings of its well-formed terms. -/
theorem decodeWord_sys_iff {w : Word} {nnn : Addr12} :
    decodeWord w = .ok (.sys nnn) ↔ encode (.sys nnn) = w ∧ sysAddressOk nnn = true := by
  constructor
  · exact encodeInvertsDecode w (.sys nnn)
  · rintro ⟨rfl, hok⟩
    exact decodeWord_encode (i := .sys nnn) hok

/-- Settles O9: the fields of `decodeWord_error_iff` as arithmetic on the word, and the words of `SYS` as those whose
12 low bits are an address `SYS` admits. -/
theorem invalidWordsAreExactlyTheTable : Obligations.InvalidWordsAreExactlyTheTable := by
  intro w
  refine ⟨by simpa only [fieldOp_toNat, fieldN_val, fieldKk_toNat] using decodeWord_error_iff w, ?_⟩
  simp only [decodeWord_sys_iff, sysAddressOk_iff_toNat]
  constructor
  · rintro ⟨nnn, rfl, hok⟩
    have hnnn := nnn.isLt
    rw [encode_sys_toNat, Nat.mod_eq_of_lt hnnn]
    exact ⟨Nat.div_eq_of_lt hnnn, hok⟩
  · rintro ⟨hop, hok⟩
    rw [← fieldNnn_toNat] at hok
    refine ⟨fieldNnn w, BitVec.eq_of_toNat_eq ?_, hok⟩
    rw [encode_sys_toNat, fieldNnn_toNat]
    omega

/-- Settles O10: the decoder evaluated on each word. -/
theorem decodesWrittenWords : Obligations.DecodesWrittenWords :=
  ⟨rfl, rfl, rfl, rfl, rfl, rfl, rfl, rfl, rfl⟩

end Sys2Proof
end

section
/-!
The tick and the step (30_encoding.md R62; 60_exceptions.md R141, R143): a word stored where `PC` points is
fetched, the phases of a `tick` each with the fault that ends it, the event a step issues, and the end of a program.
-/

namespace Sys2Proof.Machine

/-! ### Fetch -/

theorem fetch_of_fits {s : State} (h : s.pc.toNat ≤ 0xFFE) : fetch s = .ok (s.fetched, s.setPc (s.pc + 2)) := by
  rw [fetch_eq, if_pos (by omega), State.fetched]

/-- Settles O5: the two bytes of a 16-bit write join to the word again. -/
theorem storedWordIsFetched : Obligations.StoredWordIsFetched := by
  intro s a w hfits
  refine ⟨s.setMem (s.mem.write2 a.toNat w), (memWrite2_eq s a.toNat w).trans (if_pos (by omega)), ?_⟩
  rw [fetch_of_fits (s := (s.setMem _).setPc a) hfits, State.fetched, State.setPc_pc, State.byteAt_setPc,
    State.byteAt_setPc, State.byteAt_write2_high, State.byteAt_write2_low, wordOfBytes_extract]
  rfl

/-! ### The phases of a tick (R143) -/

theorem tick_of_invalid {s : State} (hf : s.fault = none) (hpc : s.pc.toNat ≤ 0xFFE) {e : Invalid}
    (he : decodeWord s.fetched = .error e) : tick s = .fault (.invalidOpcode s.fetched) := by
  rw [State.fetched] at he
  rw [tick_of_running hf, if_pos (by omega), decodeAndExecute, he]
  rfl

theorem tick_of_unfetchable_edge {s : State} (hf : s.fault = none) (h : 0xFFE < s.pc.toNat) :
    tick s = .fault (.memoryOutOfRange (faultEdge s.pc.toNat)) := by
  rw [tick_of_unfetchable hf h, faultEdge_eq_max]

/-- Settles O11: one lemma for each phase that can end the tick. -/
theorem tickFetchesDecodesExecutes : Obligations.TickFetchesDecodesExecutes := fun _ =>
  ⟨fun _ => tick_of_fault, tick_of_unfetchable_edge, fun hf hpc _ => tick_of_invalid hf hpc,
    fun hf _ => tick_of_executes hf⟩

/-- Settles O6: every access that leaves memory reports the larger of its start and 0x1000. -/
theorem accessLeavingMemoryFaults : Obligations.AccessLeavingMemoryFaults := by
  intro s nnn x y n
  refine ⟨tick_of_unfetchable_edge, fun h => ?_, fun h => ?_, fun hn h => ?_, fun h => ?_, fun h => ⟨?_, ?_⟩⟩
  · rw [exec_ret_eq, if_neg (by omega), faultEdge_eq_max]
  · rw [exec_call_eq, State.pushAddr, if_neg (by omega), faultEdge_eq_max]
  · rw [exec_drw_eq, if_neg (by omega), faultEdge_eq_max]
  · rw [exec_ldB_eq, if_neg (by omega), faultEdge_eq_max]
  · rw [exec_storeRegs_eq, if_neg (by omega), faultEdge_eq_max]
  · rw [exec_loadRegs_eq, if_neg (by omega), faultEdge_eq_max]

/-! ### The step -/

/-- Settles O13: an empty queue means `tick`, any other its first event. -/
theorem stepIssuesTheQueuedEvent : Obligations.StepIssuesTheQueuedEvent := fun _ =>
  ⟨step_of_no_event, fun _ _ => step_of_event⟩

/-- Settles O12: both forms of the queue issue a `tick`, and a `tick` does not see the queue. -/
theorem stepRunsTheDecodedInstruction : Obligations.StepRunsTheDecodedInstruction := by
  intro s i hf hpc _ hdecode
  refine ⟨fun hempty => ?_, fun rest hrest => ?_⟩
  · exact (step_of_no_event hempty).trans (tick_of_executes hf ⟨hpc, hdecode⟩)
  · exact (step_of_event hrest).trans (tick_of_executes (s := s.setHost rest) hf ⟨hpc, hdecode⟩)

/-! ### The end of a program (70_reset_and_hazards.md R165) -/

/-- The word of a jump to `a` is 0x1000 + a, so an ended program is at a jump to its own address. -/
theorem EndedAt.executes_jp {a : Nat} {s : State} (h : EndedAt a s) : Executes s (.jp (BitVec.ofNat 12 a)) := by
  obtain ⟨-, hpc, ha, hword⟩ := h
  have hencode : encode (.jp (BitVec.ofNat 12 a)) = s.fetched := by
    have hop : (0x1 : BitVec 4).toNat = 1 := rfl
    refine BitVec.eq_of_toNat_eq ?_
    rw [encode, encodeA_toNat, hop, BitVec.toNat_ofNat, hword]
    omega
  exact ⟨by omega, hencode ▸ decodeWord_encode rfl⟩

/-- Settles O60: an ended program is at a jump to its own address, which leaves a running machine as it is. -/
theorem endedProgramStandsStill : Obligations.EndedProgramStandsStill := by
  intro a s h hrun
  have ⟨hf, hpc, ha, _⟩ := h
  refine tick_of_jp_to_itself hf hrun h.executes_jp ?_
  rw [BitVec.toNat_ofNat, hpc]
  omega

end Sys2Proof.Machine
end

section
/-!
Reset, `load` and the start of a run (20_memory.md R36; 60_exceptions.md R144, R145; 70_reset_and_hazards.md R160,
R163): what the event `load` answers in each state, the two states the start-up loads lead to, and how a latched
fault stops every event but `reset`.
-/

namespace Sys2Proof.Machine

/-! ### The event `reset` and the latch -/

/-- Settles O51: the event writes the reset state over every field but the model's own three. -/
theorem resetActsAtAnyTime : Obligations.ResetActsAtAnyTime := fun s =>
  ⟨resetEvent s, rfl, rfl, rfl, rfl, rfl, rfl, rfl, rfl, rfl, rfl, rfl, rfl, rfl, rfl, rfl⟩

/-- Settles O55: `State.reset` is the reset state of a `VX` machine. -/
theorem invariantHoldsAtReset : Obligations.InvariantHoldsAtReset :=
  ⟨State.inv_resetFor .vx, State.inv_resetFor⟩

theorem State.latch_of_fault {s : State} {g : Fault} (h : s.fault = some g) (f : Fault) : s.latch f = s := by
  rw [State.latch, h]

/-- Every event but `reset` passes the gate `unlessFaulted` (R145). -/
theorem hostEvent_of_fault {e : HostEvent} {s : State} {f : Fault} (he : e ≠ .reset) (h : s.fault = some f) :
    hostEvent e s = .next s := by
  cases e with
  | reset => exact absurd rfl he
  | load bytes offset | tick | tickTimers | pressKey index pressed => exact unlessFaulted_some h _

/-- Settles O52: after a fault `FAULT` holds one, and that is all the gate of the events asks. -/
theorem faultedMachineWaitsForReset : Obligations.FaultedMachineWaitsForReset := by
  intro s f
  refine ⟨fun hnone => ?_, fun g hg => s.latch_of_fault hg f,
    fun e he => hostEvent_of_fault he (s.latch_fault f), resetEvent (s.latch f), rfl, rfl⟩
  rw [State.latch_fault, hnone, Option.getD_none]

/-! ### The event `load` (R36) -/

section
variable {s : State} (bytes : List Byte) (offset : Word)

theorem loadEvent_of_fits (hf : s.fault = none) (hrun : s.run = false)
    (hfits : offset.toNat + bytes.length ≤ 4096) :
    loadEvent bytes offset s = .next (s.setMem (s.mem.writeAll offset.toNat bytes)) := by
  rw [loadEvent, unlessFaulted_none hf, hrun, if_neg Bool.false_ne_true, loadBytes, if_neg (Nat.not_lt.2 hfits),
    writeBytes_eq, if_pos (.inr hfits), finish_ok]

theorem loadEvent_of_overflow (hf : s.fault = none) (hrun : s.run = false)
    (hover : 4096 < offset.toNat + bytes.length) :
    loadEvent bytes offset s = .fault (.loadOutOfRange (offset.toNat + bytes.length)) := by
  rw [loadEvent, unlessFaulted_none hf, hrun, if_neg Bool.false_ne_true, loadBytes, if_pos hover, raise_eq]

theorem loadEvent_of_run (hrun : s.run = true) : loadEvent bytes offset s = .next s := by
  rw [loadEvent, if_pos hrun]
  cases hf : s.fault with
  | none => exact unlessFaulted_none hf _
  | some f => exact unlessFaulted_some hf _

end

theorem State.getElem?_eq_byteAt_writeAll (s : State) (a : Nat) {bs : List Byte} {k : Nat} (hk : k < bs.length) :
    bs[k]? = some ((s.setMem (s.mem.writeAll a bs)).byteAt (a + k)) := by
  have hget : bs[k]? = some bs[k] := List.getElem?_eq_getElem hk
  rw [hget, s.byteAt_writeAll a hget]

/-- Settles O48: the four cases of the event, and the bytes of a run of stores. -/
theorem loadCopiesBeforeTheFirstTick : Obligations.LoadCopiesBeforeTheFirstTick := by
  intro bytes offset s
  refine ⟨fun hf hrun hfits => ⟨_, loadEvent_of_fits bytes offset hf hrun hfits, fun k hk => ?_, ?_⟩,
    loadEvent_of_overflow bytes offset, loadEvent_of_run bytes offset, fun f hfault => unlessFaulted_some hfault _⟩
  · exact s.getElem?_eq_byteAt_writeAll offset.toNat hk
  · exact frame_writeAll s offset.toNat bytes

/-! ### The start of a run (R163) -/

/-- Memory after the font table has been loaded at 0. -/
def fontMemory : Memory := Memory.writeAll [] 0 Config.fontTable

theorem read_fontMemory (a : Nat) : fontMemory.read a = (Config.fontTable[a]?).getD 0 := by
  rw [fontMemory, Memory.read_writeAll, if_pos (Nat.zero_le a), Nat.sub_zero]
  rfl

/-- The state after the first step from start-up: the font is in memory and the ROM image is still to be loaded. -/
def State.fontLoaded (src : Config.ShiftSrc) (rom : List Byte) : State :=
  ((State.resetFor src).setHost [.load rom Config.romBase]).setMem fontMemory

/-- The state after both loads. -/
def State.romLoaded (src : Config.ShiftSrc) (rom : List Byte) : State :=
  (State.resetFor src).setMem (fontMemory.writeAll 0x200 rom)

theorem step_startUp (src : Config.ShiftSrc) (rom : List Byte) :
    step (State.startUp src rom) = .next (State.fontLoaded src rom) :=
  loadEvent_of_fits (s := (State.resetFor src).setHost [.load rom Config.romBase]) Config.fontTable Config.fontBase
    rfl rfl (by decide)

theorem romBase_toNat : Config.romBase.toNat = 0x200 := rfl

theorem step_fontLoaded_of_fits (src : Config.ShiftSrc) {rom : List Byte} (h : rom.length ≤ 3584) :
    step (State.fontLoaded src rom) = .next (State.romLoaded src rom) :=
  loadEvent_of_fits (s := (State.resetFor src).setMem fontMemory) rom Config.romBase rfl rfl
    (by rw [romBase_toNat]; omega)

theorem step_fontLoaded_of_overflow (src : Config.ShiftSrc) {rom : List Byte} (h : 3584 < rom.length) :
    step (State.fontLoaded src rom) = .fault (.loadOutOfRange (0x200 + rom.length)) :=
  loadEvent_of_overflow (s := (State.resetFor src).setMem fontMemory) rom Config.romBase rfl rfl
    (by rw [romBase_toNat]; omega)

theorem State.byteAt_romLoaded_of_lt (src : Config.ShiftSrc) (rom : List Byte) {a : Nat} (h : a < 0x200) :
    (State.romLoaded src rom).byteAt a = (Config.fontTable[a]?).getD 0 := by
  rw [State.romLoaded, State.byteAt_setMem, Memory.read_writeAll, if_neg (by omega), read_fontMemory]

/-- The ROM image ends below 0x200 when it is empty, so the two bytes at `PC` read as 0. -/
theorem step_romLoaded_nil (src : Config.ShiftSrc) :
    step (State.romLoaded src []) = .fault (.invalidOpcode 0x0000) := by
  have hzero : ∀ a, 80 ≤ a → (State.romLoaded src []).byteAt a = 0 := fun a ha => by
    rw [State.romLoaded, State.byteAt_setMem, Memory.writeAll, read_fontMemory, List.getElem?_eq_none ha]
    rfl
  have hpc : (State.romLoaded src []).pc.toNat = 0x200 := rfl
  have hfetched : (State.romLoaded src []).fetched = 0 := by
    rw [State.fetched, hpc, hzero _ (by decide), hzero _ (by decide)]
    rfl
  have hsys : Executes (State.romLoaded src []) (.sys 0) := ⟨by rw [hpc]; decide, by rw [hfetched]; rfl⟩
  exact (step_of_no_event rfl).trans (tick_of_executes rfl hsys)

/-- From reset to the state after both loads only the bytes of the font and of the image change. -/
theorem frame_romLoaded (src : Config.ShiftSrc) (rom : List Byte) :
    Frame noReg [] (fun a => a < 80 ∨ (0x200 ≤ a ∧ a < 0x200 + rom.length)) (State.resetFor src)
      (State.romLoaded src rom) :=
  frame_setMem fun a ha => by
    obtain ⟨hfont, hrom⟩ := not_or.1 ha
    have hfont' : Config.fontTable[a]? = none := List.getElem?_eq_none (Nat.not_lt.1 hfont)
    rw [Memory.read_writeAll, read_fontMemory, hfont']
    split_ifs with hbase
    · rw [List.getElem?_eq_none (by omega)]
      rfl
    · rfl

/-- Settles O49: the two loads lead to `State.fontLoaded` and `State.romLoaded`. -/
theorem startUpLoadsFontAndRom : Obligations.StartUpLoadsFontAndRom := by
  intro src rom
  refine ⟨_, step_startUp src rom, fun hfits => ⟨_, step_fontLoaded_of_fits src hfits, fun k hk => ?_,
    fun k hk => ?_, frame_romLoaded src rom, ?_⟩, step_fontLoaded_of_overflow src⟩
  · have hget : Config.fontTable[k]? = some Config.fontTable[k] := List.getElem?_eq_getElem hk
    rw [State.byteAt_romLoaded_of_lt src rom (by omega), hget, Option.getD_some]
  · exact (State.fontLoaded src rom).getElem?_eq_byteAt_writeAll 0x200 hk
  · rintro rfl
    exact step_romLoaded_nil src

end Sys2Proof.Machine
end

section
/-!
What a step can answer (30_encoding.md R62; 60_exceptions.md R140, R142): for each instruction, each event and the
step, that the outcome is a next state or one of the listed faults, and never a refusal.
-/

namespace Sys2Proof.Machine

/-- An outcome is a next state, or a fault that `P` admits; it is no refusal. -/
def Answers (P : Fault → Prop) : Result → Prop
  | .next _ => True
  | .fault f => P f
  | .refused _ => False

theorem Answers.imp {P Q : Fault → Prop} {r : Result} (h : Answers P r) (hPQ : ∀ f, P f → Q f) : Answers Q r := by
  cases r with
  | next t => trivial
  | fault f => exact hPQ f h
  | refused g => exact h

theorem Answers.ite {P : Fault → Prop} {c : Prop} [Decidable c] {r r' : Result} (h : c → Answers P r)
    (h' : ¬ c → Answers P r') : Answers P (if c then r else r') := by
  split_ifs with hc
  · exact h hc
  · exact h' hc

theorem unlessFaulted_answers {P : Fault → Prop} {s : State} {r : Result} (h : s.fault = none → Answers P r) :
    Answers P (unlessFaulted s r) := by
  cases hf : s.fault with
  | none =>
    rw [unlessFaulted_none hf]
    exact h hf
  | some f =>
    rw [unlessFaulted_some hf]
    trivial

/-! ### The instructions -/

/-- The faults an instruction may raise: `SYS` its own word, the others an address or a key out of range. -/
def Instr.MayRaise (i : Instr) : Fault → Prop
  | .invalidOpcode ir => ir = encode i ∧ i.executes = false
  | .memoryOutOfRange a => 0xFFF < a
  | .registerIndexOutOfRange _ => False
  | .keyIndexOutOfRange k => 15 < k.toNat
  | .loadOutOfRange _ => False

/-- An instruction with a bounds test completes or reports an address above 0xFFF (60_exceptions.md R141). -/
theorem boundsTest_answers (i : Instr) {c : Prop} [Decidable c] (t : State) (a : Nat) :
    Answers (Instr.MayRaise i) (if c then .next t else .fault (.memoryOutOfRange (max a 4096))) :=
  .ite (fun _ => trivial) fun _ => Nat.le_max_right a 4096

theorem skipByKey_answers (i : Instr) (test : Bool → Bool) (x : Reg) (s : State) :
    Answers (Instr.MayRaise i) (skipByKey test x s) := by
  by_cases hlt : (s.reg x).toNat < 16
  · rw [skipByKey_of_key (k := ⟨(s.reg x).toNat, hlt⟩) rfl]
    trivial
  · rw [skipByKey_of_above (by omega)]
    show 15 < (s.reg x).toNat
    omega

/-- Every instruction has a meaning in every state. -/
theorem exec_answers (i : Instr) (s : State) : Answers (Instr.MayRaise i) (exec i s) := by
  cases i with
  | sys nnn =>
    rw [exec_sys]
    exact ⟨rfl, rfl⟩
  | ret => exact exec_ret_eq s ▸ boundsTest_answers ..
  | call nnn => exact exec_call_eq nnn s ▸ boundsTest_answers ..
  | drw x y n => exact exec_drw_eq x y n s ▸ boundsTest_answers ..
  | ldB x => exact exec_ldB_eq x s ▸ boundsTest_answers ..
  | storeRegs x => exact exec_storeRegs_eq x s ▸ boundsTest_answers ..
  | loadRegs x => exact exec_loadRegs_eq x s ▸ boundsTest_answers ..
  | skp x => exact skipByKey_answers _ (fun pressed => pressed) x s
  | sknp x => exact skipByKey_answers _ (fun pressed => !pressed) x s
  | ldVxK x =>
    rw [exec, execLdVxK]
    split <;> trivial
  | _ => trivial

/-! ### The events and the step -/

/-- The listed causes, each with what it reports (60_exceptions.md R140). -/
def ListedCause (s : State) : Fault → Prop
  | .invalidOpcode ir => ir = s.fetched ∧ ∀ i, decodeWord ir = .ok i → i.executes = false
  | .memoryOutOfRange a => 0xFFF < a
  | .registerIndexOutOfRange _ => False
  | .keyIndexOutOfRange k => 15 < k.toNat
  | .loadOutOfRange n => 4096 < n

/-- The fault of the instruction a `tick` executes is a listed cause: `SYS` reports the word it was decoded from. -/
theorem ListedCause.of_mayRaise {s : State} {i : Instr} (hi : decodeWord s.fetched = .ok i) (f : Fault)
    (hf : Instr.MayRaise i f) : ListedCause s f := by
  cases f with
  | invalidOpcode ir =>
    obtain ⟨rfl, hexec⟩ := hf
    have hword : encode i = s.fetched := (encodeInvertsDecode _ _ hi).1
    rw [ListedCause, hword, hi]
    refine ⟨rfl, fun j hj => ?_⟩
    cases hj
    exact hexec
  | registerIndexOutOfRange k | loadOutOfRange n => exact hf.elim
  | memoryOutOfRange a | keyIndexOutOfRange k => exact hf

theorem tick_answers (s : State) : Answers (ListedCause s) (tick s) := by
  cases hf : s.fault with
  | some f => exact tick_of_fault hf ▸ trivial
  | none =>
    by_cases hpc : s.pc.toNat ≤ 0xFFE
    · cases hdecode : decodeWord s.fetched with
      | error e =>
        rw [tick_of_invalid hf hpc hdecode]
        exact ⟨rfl, fun i hi => by cases hdecode.symm.trans hi⟩
      | ok i =>
        rw [tick_of_executes hf ⟨hpc, hdecode⟩]
        exact (exec_answers i _).imp (ListedCause.of_mayRaise hdecode)
    · rw [tick_of_unfetchable hf (Nat.lt_of_not_le hpc)]
      exact Nat.le_max_right s.pc.toNat 4096

theorem loadEvent_answers (bytes : List Byte) (offset : Word) (s : State) :
    Answers (ListedCause s) (loadEvent bytes offset s) := by
  refine unlessFaulted_answers fun _ => .ite (fun _ => trivial) fun _ => .ite (fun hover => hover) fun hfits => ?_
  rw [writeBytes_eq, if_pos (.inr (Nat.le_of_not_lt hfits))]
  trivial

/-- Only `tick` and `load` fault (10_state.md R25). -/
theorem hostEvent_answers_of_ne {e : HostEvent} (s : State) (htick : e ≠ .tick)
    (hload : ∀ bytes offset, e ≠ .load bytes offset) : Answers (fun _ => False) (hostEvent e s) := by
  cases e with
  | tick => exact absurd rfl htick
  | load bytes offset => exact absurd rfl (hload bytes offset)
  | reset => trivial
  | tickTimers | pressKey index pressed => exact unlessFaulted_answers fun _ => trivial

theorem hostEvent_answers (e : HostEvent) (s : State) : Answers (ListedCause s) (hostEvent e s) := by
  cases e with
  | tick => exact tick_answers s
  | load bytes offset => exact loadEvent_answers bytes offset s
  | reset | tickTimers | pressKey index pressed =>
    exact (hostEvent_answers_of_ne s (by simp) (by simp)).imp fun _ => False.elim

/-- The queue is not read by an event, so the word fetched is that of the state before the step. -/
theorem step_answers (s : State) : Answers (ListedCause s) (step s) := by
  cases hq : s.host with
  | nil => exact step_of_no_event hq ▸ tick_answers s
  | cons e rest => exact step_of_event hq ▸ hostEvent_answers e (s.setHost rest)

/-- Settles O53: `step_answers` and the code of each cause. -/
theorem faultsAreTheListedCauses : Obligations.FaultsAreTheListedCauses := by
  intro s f hstep
  have hcause : ListedCause s f := by simpa only [hstep, Answers] using step_answers s
  cases f with
  | registerIndexOutOfRange k => exact hcause
  | invalidOpcode ir | memoryOutOfRange a | keyIndexOutOfRange k | loadOutOfRange n => exact ⟨rfl, hcause⟩

/-- Settles O54: `step_answers` admits no refusal. -/
theorem noStepIsRefused : Obligations.NoStepIsRefused := by
  intro s r hstep
  simpa only [hstep, Answers] using step_answers s

end Sys2Proof.Machine
end

section
/-!
Who may change what (10_state.md sections 2 to 4 and 9): the owners of each piece of state read off the footprint of
the instructions, the next state of each event, and that the counter of free bytes is read by `RND` only.
-/

namespace Sys2Proof.Machine

/-! ### The footprint read backwards: which instructions write a piece of state -/

theorem i_mem_piecesWritten {i : Instr} (h : Piece.i ∈ Instr.piecesWritten i) :
    (∃ nnn, i = .ldI nnn) ∨ (∃ x, i = .addI x) ∨ (∃ x, i = .ldF x) := by
  cases i with
  | ldI nnn => exact .inl ⟨nnn, rfl⟩
  | addI x => exact .inr (.inl ⟨x, rfl⟩)
  | ldF x => exact .inr (.inr ⟨x, rfl⟩)
  | _ => simp [Instr.piecesWritten] at h

theorem sp_mem_piecesWritten {i : Instr} (h : Piece.sp ∈ Instr.piecesWritten i) :
    (∃ nnn, i = .call nnn) ∨ i = .ret := by
  cases i with
  | call nnn => exact .inl ⟨nnn, rfl⟩
  | ret => exact .inr rfl
  | _ => simp [Instr.piecesWritten] at h

theorem dt_mem_piecesWritten {i : Instr} (h : Piece.dt ∈ Instr.piecesWritten i) : ∃ x, i = .ldDtVx x := by
  cases i with
  | ldDtVx x => exact ⟨x, rfl⟩
  | _ => simp [Instr.piecesWritten] at h

theorem st_mem_piecesWritten {i : Instr} (h : Piece.st ∈ Instr.piecesWritten i) : ∃ x, i = .ldStVx x := by
  cases i with
  | ldStVx x => exact ⟨x, rfl⟩
  | _ => simp [Instr.piecesWritten] at h

theorem keys_notMem_piecesWritten (i : Instr) : Piece.keys ∉ Instr.piecesWritten i := by
  cases i <;> simp [Instr.piecesWritten]

theorem screen_mem_piecesWritten {i : Instr} (h : Piece.screen ∈ Instr.piecesWritten i) :
    i = .cls ∨ ∃ x y n, i = .drw x y n := by
  cases i with
  | cls => exact .inl rfl
  | drw x y n => exact .inr ⟨x, y, n, rfl⟩
  | _ => simp [Instr.piecesWritten] at h

theorem bytesStored_owner {i : Instr} {s : State} {a : Nat} (h : Instr.bytesStored i s a) :
    (∃ nnn, i = .call nnn) ∨ (∃ x, i = .ldB x) ∨ (∃ x, i = .storeRegs x) := by
  cases i with
  | call nnn => exact .inl ⟨nnn, rfl⟩
  | ldB x => exact .inr (.inl ⟨x, rfl⟩)
  | storeRegs x => exact .inr (.inr ⟨x, rfl⟩)
  | _ => exact h.elim

/-- VF is written as the flag, or as the destination of an instruction that names it (10_state.md R11). -/
theorem vF_regsWritten {i : Instr} (h : Instr.regsWritten i vF) :
    (∃ x y, i = .orReg x y ∨ i = .andReg x y ∨ i = .xorReg x y ∨ i = .addReg x y ∨ i = .subReg x y ∨
      i = .shrReg x y ∨ i = .subnReg x y ∨ i = .shlReg x y) ∨
    (∃ x, i = .addI x) ∨ (∃ x y n, i = .drw x y n) ∨
    (∃ kk, i = .ldImm vF kk ∨ i = .addImm vF kk ∨ i = .rnd vF kk) ∨ (∃ y, i = .ldReg vF y) ∨
    i = .ldVxDt vF ∨ i = .ldVxK vF ∨ i = .loadRegs vF := by
  cases i with
  | orReg x y | andReg x y | xorReg x y | addReg x y | subReg x y | shrReg x y | subnReg x y | shlReg x y =>
    exact .inl ⟨x, y, by simp⟩
  | addI x | drw x y n => simp
  | ldImm x kk | addImm x kk | rnd x kk | ldReg x y | ldVxDt x | ldVxK x =>
    obtain rfl : vF = x := h
    simp
  | loadRegs x =>
    obtain rfl : x = vF := le_antisymm (Fin.le_last x) h
    simp
  | _ => exact h.elim

/-- Settles O58: what changes is in the footprint of the instruction, read backwards. -/
theorem namedInstructionsWriteIAndSpAndVf : Obligations.NamedInstructionsWriteIAndSpAndVf := by
  intro i s t hexec
  obtain ⟨hreg, hi, -, hsp, -⟩ := exec_frame hexec
  exact ⟨fun hne => i_mem_piecesWritten (not_imp_comm.1 hi hne),
    fun hne => sp_mem_piecesWritten (not_imp_comm.1 hsp hne),
    fun hne => vF_regsWritten (not_imp_comm.1 (hreg vF) hne)⟩

/-! ### The next state of each event -/

/-- Everything an event but `reset` can do: nothing, or its own update of the state. -/
theorem hostEvent_next {e : HostEvent} {s t : State} (he : e ≠ .reset) (h : hostEvent e s = .next t) :
    t = s ∨
    (s.run = false ∧ ∃ bytes offset, e = .load bytes offset ∧ t = s.setMem (s.mem.writeAll offset.toNat bytes)) ∨
    (e = .tick ∧ ∃ i, Executes s i ∧ exec i (s.start.setPc (s.pc + 2)) = .next t) ∨
    (e = .tickTimers ∧ t = (s.setDt (countDown s.dt)).setSt (countDown s.st)) ∨
    (∃ k b, e = .pressKey k b ∧ t = s.setKey k b) := by
  cases hf : s.fault with
  | some f =>
    rw [hostEvent_of_fault he hf] at h
    cases h
    exact .inl rfl
  | none =>
    cases e with
    | reset => exact absurd rfl he
    | load bytes offset =>
      obtain ⟨-, rfl⟩ | ⟨hrun, -, rfl⟩ := loadEvent_next hf h
      · exact .inl rfl
      · exact .inr (.inl ⟨hrun, bytes, offset, rfl, rfl⟩)
    | tick => exact .inr (.inr (.inl ⟨rfl, tick_next hf h⟩))
    | tickTimers =>
      cases (tickTimersEvent_of_running hf).symm.trans h
      exact .inr (.inr (.inr (.inl ⟨rfl, rfl⟩)))
    | pressKey k b =>
      cases (unlessFaulted_none hf _).symm.trans h
      exact .inr (.inr (.inr (.inr ⟨k, b, rfl, rfl⟩)))

/-- Settles O45: the timers count down, and of the instructions only `LD DT, Vx` writes `DT`. -/
theorem delayTimerOnlyFalls : Obligations.DelayTimerOnlyFalls := by
  intro e s t he h hnot
  obtain rfl | ⟨-, bytes, offset, -, rfl⟩ | ⟨htick, i, hi, hexec⟩ | ⟨-, rfl⟩ | ⟨k, b, -, rfl⟩ :=
    hostEvent_next he h
  · exact le_rfl
  · exact le_rfl
  · obtain ⟨-, -, -, -, hdt, -⟩ := exec_frame hexec
    have hkept : Piece.dt ∉ Instr.piecesWritten i := fun hmem => by
      obtain ⟨x, rfl⟩ := dt_mem_piecesWritten hmem
      exact hnot x htick hi
    exact (congrArg BitVec.toNat (hdt hkept)).le
  · exact (toNat_countDown s.dt).trans_le (Nat.sub_le _ _)
  · exact le_rfl

/-! ### The ownership table (10_state.md R25) -/

/-- The clauses of the table for a `tick`: what it changes besides registers, `I`, `PC`, `SP` and `RUN` is in the
footprint of the instruction it executes. -/
theorem tick_owners {s t : State} {i : Instr} (hi : Executes s i)
    (hexec : exec i (s.start.setPc (s.pc + 2)) = .next t) :
    (t.dt ≠ s.dt → ∃ x, Executes s (.ldDtVx x)) ∧
    (t.st ≠ s.st → ∃ x, Executes s (.ldStVx x)) ∧
    (∀ k, t.key k = s.key k) ∧
    (∀ a, t.byteAt a ≠ s.byteAt a →
      ∃ i, Executes s i ∧ ((∃ nnn, i = .call nnn) ∨ (∃ x, i = .ldB x) ∨ (∃ x, i = .storeRegs x))) ∧
    (∀ px py, t.pixel px py ≠ s.pixel px py → Executes s .cls ∨ ∃ x y n, Executes s (.drw x y n)) ∧
    t.fault = s.fault := by
  obtain ⟨-, -, -, -, hdt, hst, hkeys, hpixel, -, hbyte, hfault, -⟩ := exec_frame hexec
  refine ⟨fun hne => ?_, fun hne => ?_, hkeys (keys_notMem_piecesWritten i), fun a hne => ?_, fun px py hne => ?_,
    hfault⟩
  · obtain ⟨x, rfl⟩ := dt_mem_piecesWritten (not_imp_comm.1 hdt hne)
    exact ⟨x, hi⟩
  · obtain ⟨x, rfl⟩ := st_mem_piecesWritten (not_imp_comm.1 hst hne)
    exact ⟨x, hi⟩
  · exact ⟨i, hi, bytesStored_owner (not_imp_comm.1 (hbyte a) hne)⟩
  · obtain rfl | ⟨x, y, n, rfl⟩ := screen_mem_piecesWritten (not_imp_comm.1 hpixel fun hall => hne (hall px py))
    · exact .inl hi
    · exact .inr ⟨x, y, n, hi⟩

/-- The key a `press_key` changes is the one it names. -/
theorem eq_of_key_setKey_ne {s : State} {k j : Key} {b : Bool} (h : (s.setKey k b).key j ≠ s.key j) : k = j := by
  by_contra hne
  exact h (by rw [State.key_setKey, if_neg (Ne.symm hne)])

/-- Settles O57: the next state of each event, and that the events other than `tick` and `load` do not fault. -/
theorem stateIsChangedByItsOwnersOnly : Obligations.StateIsChangedByItsOwnersOnly := by
  refine ⟨fun e s t he h => ?_, fun e s f h => ?_⟩
  · obtain rfl | ⟨hrun, bytes, offset, rfl, rfl⟩ | ⟨rfl, i, hi, hexec⟩ | ⟨rfl, rfl⟩ | ⟨k, b, rfl, rfl⟩ :=
      hostEvent_next he h
    · simp
    · simp [hrun]
    · obtain ⟨hdt, hst, hkey, hbyte, hpixel, hfault⟩ := tick_owners hi hexec
      exact ⟨fun hne => absurd rfl hne, fun hne => .inr ⟨rfl, hdt hne⟩, fun hne => .inr ⟨rfl, hst hne⟩,
        fun k hne => absurd (hkey k) hne, fun a hne => .inr ⟨rfl, hbyte a hne⟩,
        fun px py hne => ⟨rfl, hpixel px py hne⟩, hfault⟩
    · simp
    · have hkey : ∀ j, (s.setKey k b).key j ≠ s.key j → ∃ pressed, HostEvent.pressKey k b = .pressKey j pressed :=
        fun j hne => ⟨b, by rw [eq_of_key_setKey_ne hne]⟩
      refine ⟨fun _ => ?_, ?_, ?_, hkey, ?_, ?_, rfl⟩ <;> simp
  · by_contra hno
    obtain ⟨htick, hload⟩ := not_or.1 hno
    simpa only [h, Answers] using hostEvent_answers_of_ne s htick fun bytes offset he => hload ⟨bytes, offset, he⟩

/-! ### The free byte (41_register_alu.md R102) -/

/-- The state at position `d` in the free bytes (assumption log 3). -/
def State.setDraws (s : State) (d : Nat) : State := { s with draws := d }

theorem bytesFrom_setDraws (s : State) (d a n : Nat) : bytesFrom (s.setDraws d) a n = bytesFrom s a n := by
  induction n generalizing a with
  | zero => rfl
  | succ n ih =>
    rw [bytesFrom, ih]
    rfl

theorem setRegsFrom_setDraws (s : State) (d k : Nat) (bs : List Byte) :
    (s.setDraws d).setRegsFrom k bs = (s.setRegsFrom k bs).setDraws d := by
  induction bs generalizing s k with
  | nil => rfl
  | cons b bs ih =>
    rw [State.setRegsFrom, State.setRegsFrom]
    split_ifs with hk
    · exact ih (s.setReg ⟨k, hk⟩ b) (k + 1)
    · exact ih s (k + 1)

theorem mapNext_ite (f : State → State) (c : Prop) [Decidable c] (t : State) (g : Fault) :
    mapNext f (if c then .next t else .fault g) = if c then .next (f t) else .fault g := by
  split_ifs <;> rfl

theorem skipByKey_setDraws (test : Bool → Bool) (x : Reg) (s : State) (d : Nat) :
    skipByKey test x (s.setDraws d) = mapNext (fun t => t.setDraws d) (skipByKey test x s) := by
  by_cases hlt : (s.reg x).toNat < 16
  · rw [skipByKey_of_key (s := s) (k := ⟨_, hlt⟩) rfl, skipByKey_of_key (s := s.setDraws d) (k := ⟨_, hlt⟩) rfl,
      skipIf_eq, skipIf_eq]
    rfl
  · rw [skipByKey_of_above (s := s) (by omega),
      skipByKey_of_above (s := s.setDraws d) (show 15 < (s.reg x).toNat by omega)]
    rfl

/-- Settles O59: every other instruction reads and writes fields beside `draws`, also where it tests bounds. -/
theorem onlyRndReadsTheFreeByte : Obligations.OnlyRndReadsTheFreeByte := by
  intro i s d hrnd
  change exec i (s.setDraws d) = mapNext (fun t => t.setDraws d) (exec i s)
  cases i with
  | rnd x kk => exact absurd rfl (hrnd x kk)
  | seImm x kk | sneImm x kk | seReg x y | sneReg x y =>
    simp only [exec, execSeImm, execSneImm, execSeReg, execSneReg, skipIf_eq]
    rfl
  | ret =>
    rw [exec_ret_eq, exec_ret_eq, mapNext_ite]
    rfl
  | call nnn =>
    rw [exec_call_eq, exec_call_eq, mapNext_ite]
    rfl
  | drw x y n =>
    rw [exec_drw_eq, exec_drw_eq, mapNext_ite, bytesFrom_setDraws]
    rfl
  | ldB x =>
    rw [exec_ldB_eq, exec_ldB_eq, mapNext_ite]
    rfl
  | storeRegs x =>
    rw [exec_storeRegs_eq, exec_storeRegs_eq, mapNext_ite]
    rfl
  | loadRegs x =>
    rw [exec_loadRegs_eq, exec_loadRegs_eq, mapNext_ite, bytesFrom_setDraws, setRegsFrom_setDraws]
    rfl
  | skp x => exact skipByKey_setDraws (fun pressed => pressed) x s d
  | sknp x => exact skipByKey_setDraws (fun pressed => !pressed) x s d
  | ldVxK x =>
    have hfirst : (s.setDraws d).firstHeld = s.firstHeld := rfl
    simp only [exec, execLdVxK, hfirst]
    cases s.firstHeld <;> rfl
  | _ => rfl

end Sys2Proof.Machine
end
